-- ==== Sys2Proof/Word.lean ====
section
/-!
DEFINITION. The word types of the block's ports and registers (R7, R51). Reading a bit field of a word
as an unsigned integer is `Sys2Proof.field` of `Sys2Proof/Decode.lean`.
-/

namespace Sys2Proof

/-- A command word: the command port carries one 16-bit word (R51, R70). -/
abbrev CmdWord := BitVec 16

/-- The word of the status port and of the sample port, and the width of `P`, `L` and `B` (R28, R51). -/
abbrev Word32 := BitVec 32

end Sys2Proof
end

