-- ==== Sys2Proof/Config.lean ====
section
/-!
DEFINITION. The implementation parameters of R5, their defaults and their legal values (R6), and the
fixed constants of R5.
-/

namespace Sys2Proof

/-- The byte order of a byte-serial transport, the open parameter `HOST_BYTE_ORDER` (R52, D28). -/
inductive ByteOrder where
  | little
  | big
deriving DecidableEq, Repr

/-- A positive time in seconds as a fraction, for the open parameter `TICK_DEADLINE` (R226, D29): its
legal range, "positive time", is the type's. -/
structure Duration where
  num : ℕ+
  den : ℕ+
deriving DecidableEq, Repr

/-- One sample period, 1/`FS` (R226). No legal `FS` is 0, so what stands for it there is of no account. -/
def Duration.samplePeriod (fs : Nat) : Duration := { num := 1, den := fs.toPNat' }

/-- The parameters a model takes as arguments, with the defaults of R5. No step writes them. -/
structure Config where
  /-- `FS`, the sample rate in hertz. -/
  fs : Nat := 44100
  /-- `NUM_VOICES`, the number of voice slots. -/
  numVoices : Nat := 16
  /-- `CMD_FIFO_DEPTH`, the capacity of the command FIFO. -/
  cmdFifoDepth : Nat := 16
  /-- `HOST_BYTE_ORDER`: the spec gives no default, and no rule reads it (R52). -/
  hostByteOrder : Option ByteOrder := none
  /-- `TICK_DEADLINE`, by default 1/`FS` for the `FS` given; no rule reads it (R226, R229, D29). -/
  tickDeadline : Duration := Duration.samplePeriod fs
deriving DecidableEq, Repr

/-- The parameters when none is given (R5). -/
def Config.default : Config := {}

/-- The least sample rate that meets both constraints of R6 together with the bound of R26.
DEDUCED (log 8): `2*sin(pi*5000/FS) < 2*sqrt(2) - 2` holds at 36781 and fails at 36780. -/
abbrev FS_MIN : Nat := 36781

/-- The legal parameter values (R5, R6; log 8 for `FS`). Every byte order is legal, and every `Duration` is a
positive time. -/
abbrev Config.Legal (c : Config) : Prop :=
  FS_MIN ≤ c.fs ∧ 1 ≤ c.numVoices ∧ c.numVoices ≤ 16 ∧ 1 ≤ c.cmdFifoDepth ∧ c.cmdFifoDepth ≤ 31

/-- `MIN_OCTAVE` (R5). -/
abbrev MIN_OCTAVE : Nat := 0
/-- `MAX_OCTAVE` (R5). -/
abbrev MAX_OCTAVE : Nat := 6
/-- `OCTAVE_RESET` (R5, conflict C1). -/
abbrev OCTAVE_RESET : Nat := 4
/-- `ONE`, the sample value 1.0 in S8.24 (R5, R9). -/
abbrev ONE : Int := 16777216
/-- `CUTOFF_MIN` in hertz (R5). -/
abbrev CUTOFF_MIN : Nat := 100
/-- `CUTOFF_MAX` in hertz (R5). -/
abbrev CUTOFF_MAX : Nat := 5000
/-- `CUTOFF_STEP` in hertz (R5). -/
abbrev CUTOFF_STEP : Nat := 100
/-- `CUTOFF_RESET` in hertz (R5). -/
abbrev CUTOFF_RESET : Nat := 1000
/-- `RES_IDX_MAX` (R5). -/
abbrev RES_IDX_MAX : Nat := 15
/-- `RES_IDX_RESET` (R5). -/
abbrev RES_IDX_RESET : Nat := 0

end Sys2Proof
end

