-- ==== Sys2Proof/Syntax.lean ====
section
/-!
DEFINITION. The commands of the block: one constructor per row of the opcode map (R73).
-/

namespace Sys2Proof

/-- A command (R73). The operands are the 4-bit fields of the word (R72). -/
inductive Instr where
  /-- NOP, no operation (R150). -/
  | nop
  /-- NOTE_ON, start or retrigger the voice in a slot (R140). -/
  | noteOn (slot note : BitVec 4)
  /-- NOTE_OFF, end the voice in a slot (R141). -/
  | noteOff (slot : BitVec 4)
  /-- OCT_UP (R151). -/
  | octUp
  /-- OCT_DOWN (R152). -/
  | octDown
  /-- WAVE_CYCLE (R153). -/
  | waveCycle
  /-- FILT_TOGGLE (R154). -/
  | filtToggle
  /-- CUT_UP (R155). -/
  | cutUp
  /-- CUT_DOWN (R156). -/
  | cutDown
  /-- RES_UP (R157). -/
  | resUp
  /-- RES_DOWN (R158). -/
  | resDown
  /-- CLR_OVF (R159). -/
  | clrOvf
deriving DecidableEq, Repr

end Sys2Proof
end

