-- ==== Sys2Proof/WellFormed.lean ====
section
/-!
DEFINITION. Which terms of `Instr` are commands. The one check of the encoding is that a NOTE_ON
carries a pitch class 0..11 (R73, R75): with note 12..15 the word is RESERVED.
-/

namespace Sys2Proof

/-- The term is a command some word decodes to. -/
def Instr.wellFormed : Instr → Bool
  | .nop => true
  | .noteOn _ note => decide (note.toNat ≤ 11)
  | .noteOff _ => true
  | .octUp => true
  | .octDown => true
  | .waveCycle => true
  | .filtToggle => true
  | .cutUp => true
  | .cutDown => true
  | .resUp => true
  | .resDown => true
  | .clrOvf => true

end Sys2Proof
end

