-- ==== Sys2Proof/Decode.lean ====
section
/-!
DEFINITION. Decoding of command words, total over all 65536 words (R74), and after it the encoder,
written from the formats of R71 and the opcode map of R73.
-/

namespace Sys2Proof

/-- `w[hi:lo]`: the field of bits `hi` down to `lo`, read as an unsigned integer (R7). -/
def field {n : Nat} (w : BitVec n) (hi lo : Nat) : Nat :=
  w.toNat / 2 ^ lo % 2 ^ (hi - lo + 1)

/-- The result of decoding a word (R74): a command of the opcode map, or RESERVED. -/
inductive Cmd where
  | instr (i : Instr)
  | reserved (w : CmdWord)
deriving DecidableEq, Repr

/-- Decoding (R74). The operands are zero-extended 4-bit fields (R72). -/
def decode (w : CmdWord) : Cmd :=
  let op := field w 15 12
  let slot := field w 11 8
  let sub := field w 7 4
  let note := field w 3 0
  if op = 0x1 ∧ sub = 0 ∧ note ≤ 11 then .instr (.noteOn (BitVec.ofNat 4 slot) (BitVec.ofNat 4 note))
  else if op = 0x2 ∧ field w 7 0 = 0 then .instr (.noteOff (BitVec.ofNat 4 slot))
  else if field w 11 0 = 0 ∧ op = 0x0 then .instr .nop
  else if field w 11 0 = 0 ∧ op = 0x3 then .instr .octUp
  else if field w 11 0 = 0 ∧ op = 0x4 then .instr .octDown
  else if field w 11 0 = 0 ∧ op = 0x5 then .instr .waveCycle
  else if field w 11 0 = 0 ∧ op = 0x6 then .instr .filtToggle
  else if field w 11 0 = 0 ∧ op = 0x7 then .instr .cutUp
  else if field w 11 0 = 0 ∧ op = 0x8 then .instr .cutDown
  else if field w 11 0 = 0 ∧ op = 0x9 then .instr .resUp
  else if field w 11 0 = 0 ∧ op = 0xA then .instr .resDown
  else if field w 11 0 = 0 ∧ op = 0xB then .instr .clrOvf
  else .reserved w

/-- The four fields of a command word laid out as R70 places them; `SUB` is 0 (R70, R71). -/
def layoutWord (op slot note : Nat) : CmdWord :=
  BitVec.ofNat 16 (op * 2 ^ 12 + slot * 2 ^ 8 + note)

/-- Format Z: `OP`, bits 11:0 zero (R71). -/
def formatZ (op : Nat) : CmdWord := layoutWord op 0 0

/-- Format S: `OP`, `SLOT`, bits 7:0 zero (R71). -/
def formatS (op : Nat) (slot : BitVec 4) : CmdWord := layoutWord op slot.toNat 0

/-- Format N: `OP`, `SLOT`, `SUB = 0`, `NOTE` (R71). -/
def formatN (op : Nat) (slot note : BitVec 4) : CmdWord := layoutWord op slot.toNat note.toNat

/-- The word of a command: its `OP` from R73 in its format of R71. -/
def encode : Instr → CmdWord
  | .nop => formatZ 0x0
  | .noteOn slot note => formatN 0x1 slot note
  | .noteOff slot => formatS 0x2 slot
  | .octUp => formatZ 0x3
  | .octDown => formatZ 0x4
  | .waveCycle => formatZ 0x5
  | .filtToggle => formatZ 0x6
  | .cutUp => formatZ 0x7
  | .cutDown => formatZ 0x8
  | .resUp => formatZ 0x9
  | .resDown => formatZ 0xA
  | .clrOvf => formatZ 0xB

/-- The command the decoder reads from a row of `spec/opcode_table.json`; `none` for a RESERVED word. -/
def decodeTableWord (nbits w : Nat) : Option Instr :=
  match decode (BitVec.ofNat 16 (w % 2 ^ nbits)) with
  | .instr i => some i
  | .reserved _ => none

end Sys2Proof
end

