-- ==== Sys2Proof/Machine/State.lean ====
section
/-!
DEFINITION. The state of the block as plain data: the registers of R22, the voice array of R28, the
interface state of R34 to R36, and the model's own fields (the parameters, whether a RESET has been
taken, the requests of the two agents, the result of the last port operation). The reasons a step
can stop, and the state right after RESET.
-/

namespace Sys2Proof.Machine

/-- `WAVE` as the three-constructor type R24 allows; `Waveform.code` gives the register's value. -/
inductive Waveform where
  | sine
  | square
  | saw
deriving DecidableEq, Repr

/-- One slot of the voice array (R28). `l` and `b` are signed: their value is `toInt` (S8.24). -/
structure Voice where
  /-- `V[s].ACTIVE`: Sounding or Idle (R29). -/
  active : Bool
  /-- `V[s].NOTE`, the pitch class captured at note-on (R30). -/
  note : BitVec 4
  /-- `V[s].VOCT`, the octave captured at note-on (R30). -/
  voct : BitVec 3
  /-- `V[s].P`, the phase accumulator, UQ0.32 (R31). -/
  p : Word32
  /-- `V[s].L`, the filter's low-pass register (R32). -/
  l : Word32
  /-- `V[s].B`, the filter's band-pass register (R32). -/
  b : Word32
deriving DecidableEq, Repr

/-- A slot at its reset values (R28). -/
def Voice.reset : Voice :=
  { active := false, note := 0, voct := 0, p := 0, l := 0, b := 0 }

/-- A request for one of the four port operations (R79). -/
inductive PortOp where
  /-- CMD_WRITE: the host offers a command word (R180). -/
  | cmdWrite (w : CmdWord)
  /-- STATUS_READ: the host reads `STATUS` (R190). -/
  | statusRead
  /-- RESET: the reset input (R220). -/
  | reset
  /-- TICK: the sink pulls one sample (R181). -/
  | tick
deriving DecidableEq, Repr

/-- What a port operation returns on its port (R51). -/
inductive PortOutput where
  /-- CMD_WRITE and RESET return nothing. -/
  | nothing
  /-- The S8.24 sample of a TICK (R185). -/
  | sample (v : Word32)
  /-- The `STATUS` word of a STATUS_READ (R35). -/
  | status (w : Word32)
deriving DecidableEq, Repr

/-- The state of the block and of its ports. -/
structure State where
  /-- The parameters of R5; no step writes them (log 7). -/
  config : Config
  /-- `OCTAVE` (R23). -/
  octave : BitVec 3
  /-- `WAVE` (R24). -/
  wave : Waveform
  /-- `FILT_EN` (R25). -/
  filtEn : Bool
  /-- `CUTOFF` in hertz (R26). -/
  cutoff : BitVec 16
  /-- `RES_IDX` (R27). -/
  resIdx : BitVec 4
  /-- The voice array, slot 0 first (R28). -/
  voices : List Voice
  /-- The command FIFO, oldest word first (R34). -/
  fifo : List CmdWord
  /-- `OVF` (R36). -/
  ovf : Bool
  /-- MODEL's own: a RESET has been taken since power-on (R221, log 5). -/
  resetDone : Bool
  /-- MODEL's own: the requests of host and sink in the order they are taken (R58, log 1). -/
  pending : List PortOp
  /-- MODEL's own: what the last port operation returned (log 4). -/
  output : PortOutput
deriving DecidableEq, Repr

/-- The reasons for a fault: none. "The block raises no synchronous exception" (R200). -/
inductive Fault where
deriving DecidableEq, Repr

/-- The reasons for a refusal. -/
inductive Refusal where
  /-- Raised by an arm of `exec` whose command has no meaning yet; safe. No arm raises it. -/
  | notModelled (mnemonic : String)
  /-- Raised by a step with CMD_WRITE, TICK or STATUS_READ before the first RESET: the power-on state
  has no value and the block is refused until reset (R221); safe. -/
  | beforeFirstReset
  /-- Raised by a step from a state with a value no operation reaches (R214, R108), or with parameters
  R6 does not allow; safe. -/
  | unreachableState
deriving DecidableEq, Repr

/-- The values RESET gives the block with parameters `c` (R220, R22, R28, R34, R36). The model's own
fields are no part of the rule: nothing pending and nothing returned (log 1, log 4). -/
def State.resetValues (c : Config) : State :=
  { config := c
    octave := BitVec.ofNat 3 OCTAVE_RESET
    wave := .sine
    filtEn := false
    cutoff := BitVec.ofNat 16 CUTOFF_RESET
    resIdx := BitVec.ofNat 4 RES_IDX_RESET
    voices := List.replicate c.numVoices Voice.reset
    fifo := []
    ovf := false
    resetDone := true
    pending := []
    output := .nothing }

/-- The machine right after RESET, with the default parameters (R220, R5). -/
def State.reset : State := State.resetValues Config.default

end Sys2Proof.Machine
end

