-- ==== Sys2Proof/Machine/Ops.lean ====
section
/-!
DEFINITION. The named operations the rules are written with: the arithmetic of R8, one update per
field of the state (`X <- v`, R11), and `FifoPush`, `FifoPop` and `FifoCount` (R11, R34). The block
has no memory (R50) and takes no exception (R200, R205), so there is no operation for either.
-/

namespace Sys2Proof.Machine

/-- `clamp(lo, hi, v)` (R8). -/
def clamp (lo hi v : Int) : Int :=
  if v < lo then lo else if hi < v then hi else v

/-- `sat32(v) = clamp(-2^31, 2^31 - 1, v)` (R8). -/
def sat32 (v : Int) : Int := clamp (-2147483648) 2147483647 v

/-- `a >> k`: floor division by `2^k` (R8). -/
def asr (a : Int) (k : Nat) : Int := a / 2 ^ k

/-- `mulq(a, b) = (a * b) >> 24`, the S8.24 product rounded toward minus infinity (R8). -/
def mulq (a b : Int) : Int := asr (a * b) 24

/-- The code 0, 1, 2 of a waveform (R24). -/
def Waveform.code : Waveform → BitVec 2
  | .sine => 0
  | .square => 1
  | .saw => 2

namespace State

/-- `OCTAVE <- v`. -/
def setOctave (s : State) (v : BitVec 3) : State := { s with octave := v }
/-- `WAVE <- v`. -/
def setWave (s : State) (v : Waveform) : State := { s with wave := v }
/-- `FILT_EN <- v`. -/
def setFiltEn (s : State) (v : Bool) : State := { s with filtEn := v }
/-- `CUTOFF <- v`. -/
def setCutoff (s : State) (v : BitVec 16) : State := { s with cutoff := v }
/-- `RES_IDX <- v`. -/
def setResIdx (s : State) (v : BitVec 4) : State := { s with resIdx := v }
/-- The whole voice array is written. -/
def setVoices (s : State) (v : List Voice) : State := { s with voices := v }
/-- The whole command FIFO is written. -/
def setFifo (s : State) (v : List CmdWord) : State := { s with fifo := v }
/-- `OVF <- v`. -/
def setOvf (s : State) (v : Bool) : State := { s with ovf := v }
/-- The requests still to be taken. -/
def setPending (s : State) (v : List PortOp) : State := { s with pending := v }
/-- The result of a port operation. -/
def setOutput (s : State) (v : PortOutput) : State := { s with output := v }

/-- Slot `i` of the voice array is rewritten by `f`; the other slots keep their values. -/
def updateVoice (s : State) (i : Nat) (f : Voice → Voice) : State :=
  s.setVoices (s.voices.modify i f)

/-- `FifoCount()` (R11). -/
def fifoCount (s : State) : Nat := s.fifo.length

/-- `FifoPush(w)`: append the newest word (R34). -/
def fifoPush (s : State) (w : CmdWord) : State := s.setFifo (s.fifo ++ [w])

end State

end Sys2Proof.Machine
end

