-- ==== Sys2Proof/Machine/Operands.lean ====
section
/-!
DEFINITION. The operand forms of the commands: a voice slot and a pitch class, each a 4-bit field
(R70, R72). No command has an immediate, a register operand or a sign-extended field (R72).
-/

namespace Sys2Proof.Machine

/-- The slot operand names a slot of the voice array: `s < NUM_VOICES` (R144). -/
def slotPresent (s : State) (slot : BitVec 4) : Bool :=
  decide (slot.toNat < s.config.numVoices)

/-- The note operand is a pitch class 0..11 (R75, R82). -/
def notePresent (note : BitVec 4) : Bool := decide (note.toNat ≤ 11)

/-- Rewrite the slot an operand names; a slot `>= NUM_VOICES` changes nothing (R144). -/
def onSlot (slot : BitVec 4) (f : Voice → Voice) (s : State) : State :=
  if slotPresent s slot then s.updateVoice slot.toNat f else s

end Sys2Proof.Machine
end

