-- ==== Sys2Proof/Machine/Flags.lean ====
section
/-!
DEFINITION. The one-bit state of the block and the word that shows it: `FILT_EN` (R25), `OVF` (R36)
and `STATUS` (R35). There are no condition codes (R40).
-/

namespace Sys2Proof.Machine

/-- The value of a one-bit element as a number. -/
def bit (b : Bool) : Nat := if b then 1 else 0

/-- `FILT_EN <- 1 - FILT_EN` (R154). -/
def flipFiltEn (s : State) : State := s.setFiltEn (!s.filtEn)

/-- `OVF <- 1` (R180). -/
def raiseOvf (s : State) : State := s.setOvf true

/-- `OVF <- 0` (R159). -/
def lowerOvf (s : State) : State := s.setOvf false

/-- `STATUS = zext_32(FifoCount()) + 256 * OVF`; every other bit is 0 (R35, R190). -/
def statusWord (s : State) : Word32 := BitVec.ofNat 32 (s.fifoCount + 256 * bit s.ovf)

end Sys2Proof.Machine
end

