-- ==== Sys2Proof/Machine/GlobalCommands.lean ====
section
/-!
DEFINITION. The commands on the global control registers, CLR_OVF, NOP and the RESERVED words (R150 to
R160), as they act when applied. A register at its bound stays there and nothing is reported (R162).
-/

namespace Sys2Proof.Machine

/-- `WAVE <- (WAVE + 1) mod 3`: Sine, Square, Saw, Sine (R153). -/
def Waveform.succ : Waveform → Waveform
  | .sine => .square
  | .square => .saw
  | .saw => .sine

/-- NOP: nothing (R150). -/
def execNop (s : State) : Host.Outcome State Fault Refusal := .next s

/-- OCT_UP: `OCTAVE <- min(OCTAVE + 1, 6)` (R151). -/
def execOctUp (s : State) : Host.Outcome State Fault Refusal :=
  .next (s.setOctave (BitVec.ofNat 3 (min (s.octave.toNat + 1) MAX_OCTAVE)))

/-- OCT_DOWN: `OCTAVE <- max(OCTAVE - 1, 0)` (R152). -/
def execOctDown (s : State) : Host.Outcome State Fault Refusal :=
  .next (s.setOctave (BitVec.ofNat 3 (max (s.octave.toNat - 1) MIN_OCTAVE)))

/-- WAVE_CYCLE (R153). -/
def execWaveCycle (s : State) : Host.Outcome State Fault Refusal := .next (s.setWave s.wave.succ)

/-- FILT_TOGGLE: `FILT_EN <- 1 - FILT_EN` (R154). -/
def execFiltToggle (s : State) : Host.Outcome State Fault Refusal := .next (flipFiltEn s)

/-- CUT_UP: `CUTOFF <- min(CUTOFF + 100, 5000)` (R155). -/
def execCutUp (s : State) : Host.Outcome State Fault Refusal :=
  .next (s.setCutoff (BitVec.ofNat 16 (min (s.cutoff.toNat + CUTOFF_STEP) CUTOFF_MAX)))

/-- CUT_DOWN: `CUTOFF <- max(CUTOFF - 100, 100)` (R156). -/
def execCutDown (s : State) : Host.Outcome State Fault Refusal :=
  .next (s.setCutoff (BitVec.ofNat 16 (max (s.cutoff.toNat - CUTOFF_STEP) CUTOFF_MIN)))

/-- RES_UP: `RES_IDX <- min(RES_IDX + 1, 15)` (R157). -/
def execResUp (s : State) : Host.Outcome State Fault Refusal :=
  .next (s.setResIdx (BitVec.ofNat 4 (min (s.resIdx.toNat + 1) RES_IDX_MAX)))

/-- RES_DOWN: `RES_IDX <- max(RES_IDX - 1, 0)` (R158). -/
def execResDown (s : State) : Host.Outcome State Fault Refusal :=
  .next (s.setResIdx (BitVec.ofNat 4 (max (s.resIdx.toNat - 1) 0)))

/-- CLR_OVF: `OVF <- 0` (R159). -/
def execClrOvf (s : State) : Host.Outcome State Fault Refusal := .next (lowerOvf s)

/-- A RESERVED word: nothing (R160). -/
def execReserved (_w : CmdWord) (s : State) : Host.Outcome State Fault Refusal := .next s

end Sys2Proof.Machine
end

