-- ==== Sys2Proof/Machine/VoiceCommands.lean ====
section
/-!
DEFINITION. The two commands that create and end voices (R140, R141), as they act when applied.
-/

namespace Sys2Proof.Machine

/-- The slot as NOTE_ON leaves it: Sounding, the note and the global octave captured, phase 0 and
fresh filter registers (R140, R128). -/
def startedVoice (octave : BitVec 3) (note : BitVec 4) : Voice :=
  { active := true, note := note, voct := octave, p := 0, l := 0, b := 0 }

/-- NOTE_ON: start or retrigger the voice in a slot (R140); a slot `>= NUM_VOICES` is ignored (R144).
A term with note 12..15 is no NOTE_ON but a RESERVED word, which changes nothing (R75, R160; log 10). -/
def execNoteOn (slot note : BitVec 4) (s : State) : Host.Outcome State Fault Refusal :=
  if notePresent note then .next (onSlot slot (fun _ => startedVoice s.octave note) s) else .next s

/-- NOTE_OFF: the slot goes Idle; its other fields keep their values (R141); a slot `>= NUM_VOICES` is
ignored (R144). -/
def execNoteOff (slot : BitVec 4) (s : State) : Host.Outcome State Fault Refusal :=
  .next (onSlot slot (fun v => { v with active := false }) s)

end Sys2Proof.Machine
end

