-- ==== Sys2Proof/Machine/Dispatch.lean ====
section
/-!
DEFINITION. Applying a decoded command (R161): one arm per constructor of `Instr`.
-/

namespace Sys2Proof.Machine

/-- `APPLY` of a decoded command (R161). -/
def exec (i : Instr) (s : State) : Host.Outcome State Fault Refusal :=
  match i with
  | .nop => Sys2Proof.Machine.execNop s
  | .noteOn slot note => Sys2Proof.Machine.execNoteOn slot note s
  | .noteOff slot => Sys2Proof.Machine.execNoteOff slot s
  | .octUp => Sys2Proof.Machine.execOctUp s
  | .octDown => Sys2Proof.Machine.execOctDown s
  | .waveCycle => Sys2Proof.Machine.execWaveCycle s
  | .filtToggle => Sys2Proof.Machine.execFiltToggle s
  | .cutUp => Sys2Proof.Machine.execCutUp s
  | .cutDown => Sys2Proof.Machine.execCutDown s
  | .resUp => Sys2Proof.Machine.execResUp s
  | .resDown => Sys2Proof.Machine.execResDown s
  | .clrOvf => Sys2Proof.Machine.execClrOvf s

end Sys2Proof.Machine
end

