-- ==== Sys2Proof/Machine/Legal.lean ====
section
/-!
DEFINITION. Which states the block can be in after a RESET: the invariants of R42. A step from any
other state is refused (R214). `WAVE = 3` and `RES_IDX > 15` have no term in this model's types, and
`L`, `B` and `P` are 32-bit words by their type.
-/

namespace Sys2Proof.Machine

/-- `CUTOFF` is one of 100, 200, ..., 5000 (R26). -/
abbrev CutoffLegal (cutoff : Nat) : Prop :=
  CUTOFF_MIN ≤ cutoff ∧ cutoff ≤ CUTOFF_MAX ∧ cutoff % CUTOFF_STEP = 0

/-- A sounding slot has `NOTE <= 11` and `VOCT <= 6` (R42). -/
abbrev Voice.Legal (v : Voice) : Prop :=
  v.active = true → v.note.toNat ≤ 11 ∧ v.voct.toNat ≤ MAX_OCTAVE

/-- The invariants of R42 over legal parameters (R5, R6), with the `NUM_VOICES` slots of R28. -/
abbrev State.Legal (s : State) : Prop :=
  s.config.Legal ∧ s.octave.toNat ≤ MAX_OCTAVE ∧ CutoffLegal s.cutoff.toNat ∧
    s.voices.length = s.config.numVoices ∧ (∀ v ∈ s.voices, v.Legal) ∧
    s.fifoCount ≤ s.config.cmdFifoDepth

end Sys2Proof.Machine
end

