-- ==== Sys2Proof/Machine/FreqRom.lean ====
section
/-!
DEFINITION. `FREQ_ROM`: the 7 x 12 words listed in R94 for the default `FS`, and the words of R93 at
any other `FS`, computed exactly in natural numbers.
-/

namespace Sys2Proof.Machine

/-- The words of R94 (`FS` = 44100): row = octave, column = note. -/
def freqRomListed : List (List Nat) :=
  [[1592507, 1687203, 1787529, 1893821, 2006434, 2125742,
    2252146, 2386065, 2527948, 2678268, 2837526, 3006254],
   [3185015, 3374406, 3575058, 3787642, 4012867, 4251485,
    4504291, 4772130, 5055896, 5356535, 5675051, 6012507],
   [6370030, 6748811, 7150117, 7575285, 8025735, 8502970,
    9008582, 9544261, 10111792, 10713070, 11350103, 12025015],
   [12740059, 13497623, 14300233, 15150569, 16051469, 17005939,
    18017165, 19088521, 20223584, 21426141, 22700205, 24050030],
   [25480119, 26995246, 28600467, 30301139, 32102938, 34011878,
    36034330, 38177043, 40447168, 42852281, 45400411, 48100060],
   [50960238, 53990491, 57200933, 60602278, 64205876, 68023757,
    72068660, 76354085, 80894335, 85704563, 90800821, 96200119],
   [101920476, 107980983, 114401866, 121204555, 128411753, 136047513,
    144137319, 152708170, 161788671, 171409126, 181601643, 192400238]]

/-- The greatest `m` that is `r` plus a sum of distinct powers `2^j`, `j < k`, with `m^12 <= q`, when
`r^12 <= q`: one bit of the twelfth root at a time. -/
def root12From (q : Nat) : Nat → Nat → Nat
  | 0, r => r
  | k + 1, r => if (r + 2 ^ k) ^ 12 ≤ q then root12From q k (r + 2 ^ k) else root12From q k r

/-- The integer part of the twelfth root of `q`, for `q < 2^(12*36)`. -/
def root12 (q : Nat) : Nat := root12From q 36 0

/-- `FREQ_ROM[o][n] = round_half_away(freq_ref(n, o) * 2^32 / FS)` (R93). With
`x = freq_ref(n, o) * 2^32 / FS` (R90, R91), `(2*x)^12 = (880 * 2^32)^12 * 2^(12*o + n) / (2^57 * FS^12)`
because A4 is note 57 from C0; and `round_half_away(x) = (floor(2*x) + 1) / 2` for `x > 0`. -/
def tuningWord (fs o n : Nat) : Nat :=
  (root12 ((880 * 2 ^ 32) ^ 12 * 2 ^ (12 * o + n) / (2 ^ 57 * fs ^ 12)) + 1) / 2

/-- `FREQ_ROM[o][n]` at sample rate `fs`: the listed word at the default `FS` (R94, R97), the word of
R93 at any other (R6). -/
def freqRom (fs o n : Nat) : Nat :=
  if fs = 44100 then (freqRomListed.getD o []).getD n 0 else tuningWord fs o n

/-- `INC(s) = FREQ_ROM[V[s].VOCT][V[s].NOTE]`, the tuning word of a slot (R33). -/
def Voice.inc (v : Voice) (c : Config) : Word32 :=
  BitVec.ofNat 32 (freqRom c.fs v.voct.toNat v.note.toNat)

end Sys2Proof.Machine
end

