-- ==== Sys2Proof/Machine/SinRom.lean ====
section
/-!
DEFINITION. `SIN_ROM`: the 1024 words listed in R103, eight to a row as there, eight rows to a block.
-/

namespace Sys2Proof.Machine

/-- Entries 0 to 63 of `SIN_ROM` (R103). -/
def sinRomBlock0 : List (List Int) :=
  [[0, 102943, 205882, 308814, 411733, 514638, 617523, 720384],
   [823219, 926023, 1028791, 1131521, 1234209, 1336849, 1439440, 1541976],
   [1644455, 1746871, 1849222, 1951503, 2053710, 2155841, 2257890, 2359854],
   [2461729, 2563511, 2665197, 2766783, 2868265, 2969638, 3070900, 3172046],
   [3273072, 3373976, 3474752, 3575398, 3675909, 3776281, 3876512, 3976596],
   [4076531, 4176312, 4275936, 4375399, 4474698, 4573827, 4672785, 4771567],
   [4870169, 4968587, 5066819, 5164860, 5262706, 5360355, 5457801, 5555042],
   [5652074, 5748893, 5845495, 5941878, 6038037, 6133968, 6229669, 6325135]]

/-- Entries 64 to 127 of `SIN_ROM` (R103). -/
def sinRomBlock1 : List (List Int) :=
  [[6420363, 6515349, 6610090, 6704582, 6798821, 6892805, 6986529, 7079990],
   [7173184, 7266109, 7358759, 7451133, 7543226, 7635036, 7726557, 7817788],
   [7908725, 7999364, 8089701, 8179734, 8269459, 8358873, 8447972, 8536753],
   [8625213, 8713348, 8801154, 8888630, 8975771, 9062573, 9149035, 9235152],
   [9320922, 9406340, 9491405, 9576112, 9660458, 9744441, 9828057, 9911303],
   [9994176, 10076672, 10158790, 10240524, 10321873, 10402834, 10483403, 10563577],
   [10643353, 10722729, 10801701, 10880266, 10958422, 11036165, 11113493, 11190402],
   [11266890, 11342953, 11418590, 11493797, 11568571, 11642909, 11716809, 11790268]]

/-- Entries 128 to 191 of `SIN_ROM` (R103). -/
def sinRomBlock2 : List (List Int) :=
  [[11863283, 11935852, 12007971, 12079638, 12150850, 12221604, 12291899, 12361731],
   [12431097, 12499995, 12568423, 12636378, 12703856, 12770857, 12837376, 12903413],
   [12968963, 13034026, 13098597, 13162675, 13226258, 13289343, 13351928, 13414009],
   [13475586, 13536656, 13597215, 13657263, 13716797, 13775814, 13834313, 13892291],
   [13949745, 14006675, 14063077, 14118950, 14174291, 14229098, 14283370, 14337104],
   [14390298, 14442951, 14495059, 14546622, 14597637, 14648103, 14698017, 14747378],
   [14796184, 14844432, 14892122, 14939251, 14985817, 15031819, 15077256, 15122124],
   [15166424, 15210152, 15253308, 15295889, 15337895, 15379323, 15420172, 15460440]]

/-- Entries 192 to 255 of `SIN_ROM` (R103). -/
def sinRomBlock3 : List (List Int) :=
  [[15500126, 15539229, 15577747, 15615678, 15653022, 15689776, 15725939, 15761510],
   [15796488, 15830871, 15864658, 15897848, 15930439, 15962431, 15993821, 16024610],
   [16054795, 16084375, 16113350, 16141719, 16169479, 16196631, 16223173, 16249104],
   [16274424, 16299131, 16323224, 16346702, 16369565, 16391812, 16413442, 16434454],
   [16454846, 16474620, 16493773, 16512305, 16530216, 16547504, 16564169, 16580211],
   [16595628, 16610420, 16624588, 16638129, 16651044, 16663331, 16674992, 16686025],
   [16696429, 16706205, 16715352, 16723869, 16731757, 16739015, 16745643, 16751640],
   [16757007, 16761743, 16765847, 16769321, 16772163, 16774374, 16775953, 16776900]]

/-- Entries 256 to 319 of `SIN_ROM` (R103). -/
def sinRomBlock4 : List (List Int) :=
  [[16777216, 16776900, 16775953, 16774374, 16772163, 16769321, 16765847, 16761743],
   [16757007, 16751640, 16745643, 16739015, 16731757, 16723869, 16715352, 16706205],
   [16696429, 16686025, 16674992, 16663331, 16651044, 16638129, 16624588, 16610420],
   [16595628, 16580211, 16564169, 16547504, 16530216, 16512305, 16493773, 16474620],
   [16454846, 16434454, 16413442, 16391812, 16369565, 16346702, 16323224, 16299131],
   [16274424, 16249104, 16223173, 16196631, 16169479, 16141719, 16113350, 16084375],
   [16054795, 16024610, 15993821, 15962431, 15930439, 15897848, 15864658, 15830871],
   [15796488, 15761510, 15725939, 15689776, 15653022, 15615678, 15577747, 15539229]]

/-- Entries 320 to 383 of `SIN_ROM` (R103). -/
def sinRomBlock5 : List (List Int) :=
  [[15500126, 15460440, 15420172, 15379323, 15337895, 15295889, 15253308, 15210152],
   [15166424, 15122124, 15077256, 15031819, 14985817, 14939251, 14892122, 14844432],
   [14796184, 14747378, 14698017, 14648103, 14597637, 14546622, 14495059, 14442951],
   [14390298, 14337104, 14283370, 14229098, 14174291, 14118950, 14063077, 14006675],
   [13949745, 13892291, 13834313, 13775814, 13716797, 13657263, 13597215, 13536656],
   [13475586, 13414009, 13351928, 13289343, 13226258, 13162675, 13098597, 13034026],
   [12968963, 12903413, 12837376, 12770857, 12703856, 12636378, 12568423, 12499995],
   [12431097, 12361731, 12291899, 12221604, 12150850, 12079638, 12007971, 11935852]]

/-- Entries 384 to 447 of `SIN_ROM` (R103). -/
def sinRomBlock6 : List (List Int) :=
  [[11863283, 11790268, 11716809, 11642909, 11568571, 11493797, 11418590, 11342953],
   [11266890, 11190402, 11113493, 11036165, 10958422, 10880266, 10801701, 10722729],
   [10643353, 10563577, 10483403, 10402834, 10321873, 10240524, 10158790, 10076672],
   [9994176, 9911303, 9828057, 9744441, 9660458, 9576112, 9491405, 9406340],
   [9320922, 9235152, 9149035, 9062573, 8975771, 8888630, 8801154, 8713348],
   [8625213, 8536753, 8447972, 8358873, 8269459, 8179734, 8089701, 7999364],
   [7908725, 7817788, 7726557, 7635036, 7543226, 7451133, 7358759, 7266109],
   [7173184, 7079990, 6986529, 6892805, 6798821, 6704582, 6610090, 6515349]]

/-- Entries 448 to 511 of `SIN_ROM` (R103). -/
def sinRomBlock7 : List (List Int) :=
  [[6420363, 6325135, 6229669, 6133968, 6038037, 5941878, 5845495, 5748893],
   [5652074, 5555042, 5457801, 5360355, 5262706, 5164860, 5066819, 4968587],
   [4870169, 4771567, 4672785, 4573827, 4474698, 4375399, 4275936, 4176312],
   [4076531, 3976596, 3876512, 3776281, 3675909, 3575398, 3474752, 3373976],
   [3273072, 3172046, 3070900, 2969638, 2868265, 2766783, 2665197, 2563511],
   [2461729, 2359854, 2257890, 2155841, 2053710, 1951503, 1849222, 1746871],
   [1644455, 1541976, 1439440, 1336849, 1234209, 1131521, 1028791, 926023],
   [823219, 720384, 617523, 514638, 411733, 308814, 205882, 102943]]

/-- Entries 512 to 575 of `SIN_ROM` (R103). -/
def sinRomBlock8 : List (List Int) :=
  [[0, -102943, -205882, -308814, -411733, -514638, -617523, -720384],
   [-823219, -926023, -1028791, -1131521, -1234209, -1336849, -1439440, -1541976],
   [-1644455, -1746871, -1849222, -1951503, -2053710, -2155841, -2257890, -2359854],
   [-2461729, -2563511, -2665197, -2766783, -2868265, -2969638, -3070900, -3172046],
   [-3273072, -3373976, -3474752, -3575398, -3675909, -3776281, -3876512, -3976596],
   [-4076531, -4176312, -4275936, -4375399, -4474698, -4573827, -4672785, -4771567],
   [-4870169, -4968587, -5066819, -5164860, -5262706, -5360355, -5457801, -5555042],
   [-5652074, -5748893, -5845495, -5941878, -6038037, -6133968, -6229669, -6325135]]

/-- Entries 576 to 639 of `SIN_ROM` (R103). -/
def sinRomBlock9 : List (List Int) :=
  [[-6420363, -6515349, -6610090, -6704582, -6798821, -6892805, -6986529, -7079990],
   [-7173184, -7266109, -7358759, -7451133, -7543226, -7635036, -7726557, -7817788],
   [-7908725, -7999364, -8089701, -8179734, -8269459, -8358873, -8447972, -8536753],
   [-8625213, -8713348, -8801154, -8888630, -8975771, -9062573, -9149035, -9235152],
   [-9320922, -9406340, -9491405, -9576112, -9660458, -9744441, -9828057, -9911303],
   [-9994176, -10076672, -10158790, -10240524, -10321873, -10402834, -10483403, -10563577],
   [-10643353, -10722729, -10801701, -10880266, -10958422, -11036165, -11113493, -11190402],
   [-11266890, -11342953, -11418590, -11493797, -11568571, -11642909, -11716809, -11790268]]

/-- Entries 640 to 703 of `SIN_ROM` (R103). -/
def sinRomBlock10 : List (List Int) :=
  [[-11863283, -11935852, -12007971, -12079638, -12150850, -12221604, -12291899, -12361731],
   [-12431097, -12499995, -12568423, -12636378, -12703856, -12770857, -12837376, -12903413],
   [-12968963, -13034026, -13098597, -13162675, -13226258, -13289343, -13351928, -13414009],
   [-13475586, -13536656, -13597215, -13657263, -13716797, -13775814, -13834313, -13892291],
   [-13949745, -14006675, -14063077, -14118950, -14174291, -14229098, -14283370, -14337104],
   [-14390298, -14442951, -14495059, -14546622, -14597637, -14648103, -14698017, -14747378],
   [-14796184, -14844432, -14892122, -14939251, -14985817, -15031819, -15077256, -15122124],
   [-15166424, -15210152, -15253308, -15295889, -15337895, -15379323, -15420172, -15460440]]

/-- Entries 704 to 767 of `SIN_ROM` (R103). -/
def sinRomBlock11 : List (List Int) :=
  [[-15500126, -15539229, -15577747, -15615678, -15653022, -15689776, -15725939, -15761510],
   [-15796488, -15830871, -15864658, -15897848, -15930439, -15962431, -15993821, -16024610],
   [-16054795, -16084375, -16113350, -16141719, -16169479, -16196631, -16223173, -16249104],
   [-16274424, -16299131, -16323224, -16346702, -16369565, -16391812, -16413442, -16434454],
   [-16454846, -16474620, -16493773, -16512305, -16530216, -16547504, -16564169, -16580211],
   [-16595628, -16610420, -16624588, -16638129, -16651044, -16663331, -16674992, -16686025],
   [-16696429, -16706205, -16715352, -16723869, -16731757, -16739015, -16745643, -16751640],
   [-16757007, -16761743, -16765847, -16769321, -16772163, -16774374, -16775953, -16776900]]

/-- Entries 768 to 831 of `SIN_ROM` (R103). -/
def sinRomBlock12 : List (List Int) :=
  [[-16777216, -16776900, -16775953, -16774374, -16772163, -16769321, -16765847, -16761743],
   [-16757007, -16751640, -16745643, -16739015, -16731757, -16723869, -16715352, -16706205],
   [-16696429, -16686025, -16674992, -16663331, -16651044, -16638129, -16624588, -16610420],
   [-16595628, -16580211, -16564169, -16547504, -16530216, -16512305, -16493773, -16474620],
   [-16454846, -16434454, -16413442, -16391812, -16369565, -16346702, -16323224, -16299131],
   [-16274424, -16249104, -16223173, -16196631, -16169479, -16141719, -16113350, -16084375],
   [-16054795, -16024610, -15993821, -15962431, -15930439, -15897848, -15864658, -15830871],
   [-15796488, -15761510, -15725939, -15689776, -15653022, -15615678, -15577747, -15539229]]

/-- Entries 832 to 895 of `SIN_ROM` (R103). -/
def sinRomBlock13 : List (List Int) :=
  [[-15500126, -15460440, -15420172, -15379323, -15337895, -15295889, -15253308, -15210152],
   [-15166424, -15122124, -15077256, -15031819, -14985817, -14939251, -14892122, -14844432],
   [-14796184, -14747378, -14698017, -14648103, -14597637, -14546622, -14495059, -14442951],
   [-14390298, -14337104, -14283370, -14229098, -14174291, -14118950, -14063077, -14006675],
   [-13949745, -13892291, -13834313, -13775814, -13716797, -13657263, -13597215, -13536656],
   [-13475586, -13414009, -13351928, -13289343, -13226258, -13162675, -13098597, -13034026],
   [-12968963, -12903413, -12837376, -12770857, -12703856, -12636378, -12568423, -12499995],
   [-12431097, -12361731, -12291899, -12221604, -12150850, -12079638, -12007971, -11935852]]

/-- Entries 896 to 959 of `SIN_ROM` (R103). -/
def sinRomBlock14 : List (List Int) :=
  [[-11863283, -11790268, -11716809, -11642909, -11568571, -11493797, -11418590, -11342953],
   [-11266890, -11190402, -11113493, -11036165, -10958422, -10880266, -10801701, -10722729],
   [-10643353, -10563577, -10483403, -10402834, -10321873, -10240524, -10158790, -10076672],
   [-9994176, -9911303, -9828057, -9744441, -9660458, -9576112, -9491405, -9406340],
   [-9320922, -9235152, -9149035, -9062573, -8975771, -8888630, -8801154, -8713348],
   [-8625213, -8536753, -8447972, -8358873, -8269459, -8179734, -8089701, -7999364],
   [-7908725, -7817788, -7726557, -7635036, -7543226, -7451133, -7358759, -7266109],
   [-7173184, -7079990, -6986529, -6892805, -6798821, -6704582, -6610090, -6515349]]

/-- Entries 960 to 1023 of `SIN_ROM` (R103). -/
def sinRomBlock15 : List (List Int) :=
  [[-6420363, -6325135, -6229669, -6133968, -6038037, -5941878, -5845495, -5748893],
   [-5652074, -5555042, -5457801, -5360355, -5262706, -5164860, -5066819, -4968587],
   [-4870169, -4771567, -4672785, -4573827, -4474698, -4375399, -4275936, -4176312],
   [-4076531, -3976596, -3876512, -3776281, -3675909, -3575398, -3474752, -3373976],
   [-3273072, -3172046, -3070900, -2969638, -2868265, -2766783, -2665197, -2563511],
   [-2461729, -2359854, -2257890, -2155841, -2053710, -1951503, -1849222, -1746871],
   [-1644455, -1541976, -1439440, -1336849, -1234209, -1131521, -1028791, -926023],
   [-823219, -720384, -617523, -514638, -411733, -308814, -205882, -102943]]

/-- The blocks of `SIN_ROM` in order (R103). -/
def sinRomBlocks : List (List (List Int)) :=
  [sinRomBlock0, sinRomBlock1, sinRomBlock2, sinRomBlock3,
   sinRomBlock4, sinRomBlock5, sinRomBlock6, sinRomBlock7,
   sinRomBlock8, sinRomBlock9, sinRomBlock10, sinRomBlock11,
   sinRomBlock12, sinRomBlock13, sinRomBlock14, sinRomBlock15]

/-- `SIN_ROM[i]`, for `i` in 0..1023 (R102, R103). -/
def sinRom (i : Nat) : Int :=
  ((sinRomBlocks.getD (i / 64) []).getD (i / 8 % 8) []).getD (i % 8) 0

end Sys2Proof.Machine
end

