-- ==== Sys2Proof/Machine/Oscillator.lean ====
section
/-!
DEFINITION. The oscillator: the interpolated sine of R104 and the three waveforms of R105 to R107.
-/

namespace Sys2Proof.Machine

/-- `sinU(P)`, the interpolated sine (R104): `i = P[31:22]`, `frac = P[21:0]`. -/
def sinU (p : Word32) : Int :=
  let i := field p 31 22
  let frac := field p 21 0
  let a := sinRom i
  let b := sinRom ((i + 1) % 1024)
  a + asr ((b - a) * frac) 22

/-- The square wave: `ONE` when `P[31] = 0`, else `-ONE` (R106). -/
def squareU (p : Word32) : Int := if field p 31 31 = 0 then ONE else -ONE

/-- The sawtooth: `(P >> 7) - ONE` (R107). -/
def sawU (p : Word32) : Int := asr p.toNat 7 - ONE

/-- `OSC(P, w)` (R100). -/
def osc (p : Word32) : Waveform → Int
  | .sine => sinU p
  | .square => squareU p
  | .saw => sawU p

end Sys2Proof.Machine
end

