-- ==== Sys2Proof/Machine/Filter.lean ====
section
/-!
DEFINITION. The resonant low-pass filter: the function of R120 and its two coefficients (R122, R123).
-/

namespace Sys2Proof.Machine

/-- The coefficients of one TICK, S8.24 values shared by every voice (R124). -/
structure Coefficients where
  /-- `F` (R122). -/
  f : Int
  /-- `QD` (R123). -/
  qd : Int
deriving DecidableEq, Repr

/-- `PC = (CUTOFF * 2^31) // FS`, a phase in UQ0.32 (R122). -/
def cutoffPhase (fs cutoff : Nat) : Nat := cutoff * 2 ^ 31 / fs

/-- `F = 2 * sinU(PC)` (R122). -/
def coefF (fs cutoff : Nat) : Int := 2 * sinU (BitVec.ofNat 32 (cutoffPhase fs cutoff))

/-- `QD = (16 - RES_IDX) * 2^21` (R123). -/
def coefQD (resIdx : Nat) : Int := (16 - (resIdx : Int)) * 2 ^ 21

/-- The coefficients from the registers as they stand (R124). -/
def coefficients (s : State) : Coefficients :=
  { f := coefF s.config.fs s.cutoff.toNat, qd := coefQD s.resIdx.toNat }

/-- What one call of the filter returns: the output sample and the new register values (R120). -/
structure SvfResult where
  y : Int
  l : Int
  b : Int
deriving DecidableEq, Repr

/-- `SVF(x, L, B, F, QD)` (R120). -/
def svf (x l b : Int) (c : Coefficients) : SvfResult :=
  let l1 := sat32 (l + mulq c.f b)
  let h := sat32 (x - l1 - mulq c.qd b)
  let b1 := sat32 (b + mulq c.f h)
  { y := l1, l := l1, b := b1 }

end Sys2Proof.Machine
end

