-- ==== Sys2Proof/Machine/Mixer.lean ====
section
/-!
DEFINITION. The voice evaluation and the mixer of a TICK (R181 steps 2 to 4, R182, R183).
-/

namespace Sys2Proof.Machine

/-- The registers every lane of one TICK shares (R183). -/
structure LaneInputs where
  config : Config
  wave : Waveform
  filtEn : Bool
  coefs : Coefficients
deriving DecidableEq, Repr

/-- The shared inputs from the registers as they stand after the TICK's commands (R124, R181). -/
def laneInputs (s : State) : LaneInputs :=
  { config := s.config, wave := s.wave, filtEn := s.filtEn, coefs := coefficients s }

/-- The contribution `y` of a slot to the mix: 0 when Idle; the oscillator's sample at the phase before
the advance, through the filter when `FILT_EN = 1` (R181, R126, R127). -/
def laneSample (c : LaneInputs) (v : Voice) : Int :=
  if v.active then
    if c.filtEn then (svf (osc v.p c.wave) v.l.toInt v.b.toInt c.coefs).y else osc v.p c.wave
  else 0

/-- The filter registers of a sounding slot after the TICK: written only when `FILT_EN = 1` (R127). -/
def filteredVoice (c : LaneInputs) (v : Voice) : Voice :=
  if c.filtEn then
    let r := svf (osc v.p c.wave) v.l.toInt v.b.toInt c.coefs
    { v with l := BitVec.ofInt 32 r.l, b := BitVec.ofInt 32 r.b }
  else v

/-- A slot after the TICK: an Idle slot is not written; a sounding one has its filter registers updated
and its phase advanced by its tuning word, modulo 2^32 (R181, R111). -/
def laneVoice (c : LaneInputs) (v : Voice) : Voice :=
  if v.active then { filteredVoice c v with p := v.p + v.inc c.config } else v

/-- The exact sum of the contributions of all slots (R182, R184). -/
def mixSum (c : LaneInputs) (vs : List Voice) : Int := (vs.map (laneSample c)).sum

/-- The mixed sample: the sum clamped once to `[-ONE, ONE]` (R182). -/
def mixSample (c : LaneInputs) (vs : List Voice) : Int := clamp (-ONE) ONE (mixSum c vs)

/-- Steps 2 to 4 of a TICK: evaluate every slot, mix, and emit the sample as a 32-bit word (R181, R185). -/
def produceSample (s : State) : State :=
  let c := laneInputs s
  (s.setVoices (s.voices.map (laneVoice c))).setOutput
    (.sample (BitVec.ofInt 32 (mixSample c s.voices)))

end Sys2Proof.Machine
end

