-- ==== Sys2Proof/Machine/Ports.lean ====
section
/-!
DEFINITION. The four port operations (R79): CMD_WRITE (R180), TICK (R181), STATUS_READ (R190) and RESET
(R220), each one atomic step (R54), and which states they are refused from (R214, R221).
-/

namespace Sys2Proof.Machine

/-- The two agents (R12). -/
inductive Agent where
  | host
  | sink
deriving DecidableEq, Repr

/-- Which agent takes a port operation (R12). -/
def PortOp.agent : PortOp → Agent
  | .cmdWrite _ => .host
  | .statusRead => .host
  | .reset => .host
  | .tick => .sink

/-- `APPLY(w)` (R161): decode the word and apply the command, or do nothing for a RESERVED word. -/
def applyWord (w : CmdWord) (s : State) : Host.Outcome State Fault Refusal :=
  match decode w with
  | .instr i => exec i s
  | .reserved w' => execReserved w' s

/-- Step 1 of a TICK: pop and apply the words `ws`, oldest first, each complete before the next
(R181, R161). While a word is applied the FIFO holds the words behind it. -/
def drainWords : List CmdWord → State → Host.Outcome State Fault Refusal
  | [], s => .next s
  | w :: ws, s =>
    match applyWord w (s.setFifo ws) with
    | .next s' => drainWords ws s'
    | .fault r => .fault r
    | .refused r => .refused r

/-- TICK: apply every accepted word, then produce one sample (R181). -/
def tick (s : State) : Host.Outcome State Fault Refusal :=
  match drainWords s.fifo s with
  | .next s' => .next (produceSample s')
  | .fault r => .fault r
  | .refused r => .refused r

/-- CMD_WRITE: accept the word, or drop it and set `OVF` when the FIFO is full (R180). -/
def cmdWrite (w : CmdWord) (s : State) : State :=
  (if s.fifoCount < s.config.cmdFifoDepth then s.fifoPush w else raiseOvf s).setOutput .nothing

/-- STATUS_READ: return the status word; no side effect (R190, R55). -/
def statusRead (s : State) : State := s.setOutput (.status (statusWord s))

/-- RESET: every register, slot, the FIFO and `OVF` at their reset values; no sample (R220). The
requests behind it stay. -/
def resetBlock (s : State) : State := (State.resetValues s.config).setPending s.pending

/-- A port operation from a state the block can be in. -/
def performLegal (op : PortOp) (s : State) : Host.Outcome State Fault Refusal :=
  match op with
  | .cmdWrite w => .next (cmdWrite w s)
  | .statusRead => .next (statusRead s)
  | .reset => .next (resetBlock s)
  | .tick => tick s

/-- A port operation before the first RESET: only RESET has a meaning (R221). -/
def performPowerOn (op : PortOp) (s : State) : Host.Outcome State Fault Refusal :=
  match op with
  | .cmdWrite _ => .refused .beforeFirstReset
  | .statusRead => .refused .beforeFirstReset
  | .reset => .next (resetBlock s)
  | .tick => .refused .beforeFirstReset

/-- A port operation: refused from an unreachable state (R214) and, but for RESET, before the first
RESET (R221). -/
def perform (op : PortOp) (s : State) : Host.Outcome State Fault Refusal :=
  if s.resetDone then
    if s.Legal then performLegal op s else .refused .unreachableState
  else if s.config.Legal then performPowerOn op s else .refused .unreachableState

/-- One step: take the oldest request of the two agents. With no request nothing changes: the block
"takes no steps but keeps all its state" (R212). -/
def takeStep (s : State) : Host.Outcome State Fault Refusal :=
  match s.pending with
  | [] => .next s
  | op :: rest => perform op (s.setPending rest)

/-- The state in which the next step is a TICK that applies the one word `w` (its low `nbits` bits). -/
def placeWord (s : State) (nbits w : Nat) : State :=
  (s.setFifo [BitVec.ofNat 16 (w % 2 ^ nbits)]).setPending (.tick :: s.pending)

end Sys2Proof.Machine
end

