-- ==== Sys2Proof/Machine/Step.lean ====
section
/-!
DEFINITION. The step of the machine: one atomic port operation (R54, R58). The block fetches nothing
(R53): a command word runs when a TICK takes it from the command FIFO (R59).
-/

namespace Sys2Proof.Machine

/-- One step. -/
def step (s : State) : Host.Outcome State Fault Refusal := takeStep s

/-- `s` with the word placed so that the very next step runs exactly it (log 2). -/
def State.withFetchWord (s : State) (nbits w : Nat) : State := placeWord s nbits w

end Sys2Proof.Machine
end

