-- ==== Sys2Proof/Machine/Trace.lean ====
section
/-!
DEFINITION. Runs of port operations and what they return: `produce_block(n)` (R78, R187) and the trace of
a program (R80).
-/

namespace Sys2Proof.Machine

/-- What a step adds to a trace: the sample of a TICK or the word of a STATUS_READ (R80). -/
def PortOutput.traced : PortOutput → List PortOutput
  | .nothing => []
  | .sample v => [.sample v]
  | .status w => [.status w]

/-- Take the operations in order: the trace and the state after them; `none` if one is refused. -/
def runOps : List PortOp → State → Option (List PortOutput × State)
  | [], s => some ([], s)
  | op :: rest, s =>
    match perform op s with
    | .next s' =>
      match runOps rest s' with
      | some (out, t) => some (s'.output.traced ++ out, t)
      | none => none
    | .fault _ => none
    | .refused _ => none

/-- `produce_block(n)`: n consecutive TICKs by the sink (R187). -/
def produceBlock (n : Nat) (s : State) : Option (List PortOutput × State) :=
  runOps (List.replicate n .tick) s

end Sys2Proof.Machine
end

