-- ==== Sys2Proof/Machine/Assembler.lean ====
section
/-!
DEFINITION. The notation of test programs: note names (R82), lines and pseudo-operations with their
expansions into port operations (R80, R81). It is notation only (D32): no port sees it.
-/

namespace Sys2Proof.Machine

/-- A line of a program (R80) or a pseudo-operation (R81). -/
inductive AsmLine where
  /-- A command mnemonic with its operands: the CMD_WRITE of its word. -/
  | command (i : Instr)
  /-- `.word <hex>`: the CMD_WRITE of any word. -/
  | word (w : CmdWord)
  /-- `TICK`. -/
  | tick
  /-- `STATUS`. -/
  | status
  /-- `RESET`. -/
  | reset
  /-- `BLOCK <n>`. -/
  | block (n : Nat)
  /-- `ALL_OFF`. -/
  | allOff
  /-- `REPEAT <n> <line>`. -/
  | rep (n : Nat) (line : AsmLine)
deriving DecidableEq, Repr

/-- The port operations a line stands for (R80, R81). -/
def AsmLine.expand (c : Config) : AsmLine → List PortOp
  | .command i => [.cmdWrite (encode i)]
  | .word w => [.cmdWrite w]
  | .tick => [.tick]
  | .status => [.statusRead]
  | .reset => [.reset]
  | .block n => List.replicate n .tick
  | .allOff => (List.range c.numVoices).map fun k => .cmdWrite (encode (.noteOff (BitVec.ofNat 4 k)))
  | .rep n line => (List.replicate n (line.expand c)).flatten

/-- The port operations of a program, line by line (R80). -/
def assemble (c : Config) (lines : List AsmLine) : List PortOp := lines.flatMap (AsmLine.expand c)

/-- The twelve pitch classes in the order of R82, 0 to 11: its letter where the class has a name of one letter,
a blank where its name is a letter raised or lowered. -/
def octaveLayout : List Char := "C D EF G A B".toList

/-- The class of a name of one letter (R82). -/
def letterClass (letter : Char) : Option Nat := if letter = ' ' then none else octaveLayout.idxOf? letter

/-- A class reached by raising or lowering a letter: R82 names only those without a letter of their own. -/
def raisedOrLowered (k : Nat) : Option Nat := if octaveLayout[k]? = some ' ' then some k else none

/-- The pitch class of a note name (R82): a letter, a letter with `#` one class above it, or a letter with `b`
one class below it. -/
def noteNumber (name : String) : Option Nat :=
  match name.toList with
  | [letter] => letterClass letter
  | [letter, '#'] => (letterClass letter).bind fun k => raisedOrLowered (k + 1)
  | [letter, 'b'] => (letterClass letter).bind fun k => raisedOrLowered (k - 1)
  | _ => none

/-- The value of a digit in a base up to 16. -/
def digitValue (base : Nat) (ch : Char) : Option Nat :=
  let k := if '0' ≤ ch ∧ ch ≤ '9' then ch.toNat - 48
    else if 'A' ≤ ch ∧ ch ≤ 'F' then ch.toNat - 55
    else if 'a' ≤ ch ∧ ch ≤ 'f' then ch.toNat - 87 else base
  if k < base then some k else none

/-- The number a non-empty run of digits stands for. -/
def digitsValue (base : Nat) (cs : List Char) : Option Nat :=
  match cs with
  | [] => none
  | _ :: _ => cs.foldl (fun acc ch => match acc, digitValue base ch with
      | some n, some d => some (n * base + d)
      | _, _ => none) (some 0)

/-- A decimal operand (R80). -/
def decimal (token : String) : Option Nat := digitsValue 10 token.toList

/-- A hexadecimal operand, with or without the `0x` of R7 (log 16). -/
def hexadecimal (token : String) : Option Nat :=
  match token.toList with
  | '0' :: 'x' :: cs => digitsValue 16 cs
  | '0' :: 'X' :: cs => digitsValue 16 cs
  | cs => digitsValue 16 cs

/-- A slot operand, decimal 0..15 (R80). -/
def slotOperand (token : String) : Option (BitVec 4) :=
  match decimal token with
  | some k => if k ≤ 15 then some (BitVec.ofNat 4 k) else none
  | none => none

/-- A note operand, a name of R82 or decimal 0..11 (R80). -/
def noteOperand (token : String) : Option (BitVec 4) :=
  match (noteNumber token).or (decimal token) with
  | some k => if k ≤ 11 then some (BitVec.ofNat 4 k) else none
  | none => none

/-- The tokens of a line: what stands before `;`, cut at blanks, a comma being a token of its own.
`cur` is the token read so far, last character first. -/
def tokensFrom : List Char → List Char → List String
  | [], cur => if cur = [] then [] else [String.ofList cur.reverse]
  | ch :: rest, cur =>
    let done : List String := if cur = [] then [] else [String.ofList cur.reverse]
    if ch = ';' then done
    else if ch = ',' then done ++ "," :: tokensFrom rest []
    else if ch = ' ' ∨ ch = '\t' then done ++ tokensFrom rest []
    else tokensFrom rest (ch :: cur)

/-- The mnemonics of the commands without operands, of the port operations and of `ALL_OFF` (R80, R81). -/
def bareLines : List (String × AsmLine) :=
  [("NOP", .command .nop), ("OCT_UP", .command .octUp), ("OCT_DOWN", .command .octDown),
   ("WAVE_CYCLE", .command .waveCycle), ("FILT_TOGGLE", .command .filtToggle),
   ("CUT_UP", .command .cutUp), ("CUT_DOWN", .command .cutDown), ("RES_UP", .command .resUp),
   ("RES_DOWN", .command .resDown), ("CLR_OVF", .command .clrOvf), ("TICK", .tick),
   ("STATUS", .status), ("RESET", .reset), ("ALL_OFF", .allOff)]

/-- A mnemonic in upper case: "Mnemonics are case-insensitive" (R80). -/
def upperCase (token : String) : String := String.ofList (token.toList.map Char.toUpper)

/-- The line a list of tokens spells (R80, R81); `none` if it spells none. -/
def parseTokens : List String → Option AsmLine
  | [] => none
  | [m] => bareLines.lookup (upperCase m)
  | [m, a] =>
    if upperCase m = "NOTE_OFF" then (slotOperand a).map fun s => .command (.noteOff s)
    else if upperCase m = "BLOCK" then (decimal a).map .block
    else if upperCase m = ".WORD" then
      (hexadecimal a).bind fun w => if w < 2 ^ 16 then some (.word (BitVec.ofNat 16 w)) else none
    else none
  | m :: a :: b :: rest =>
    if upperCase m = "REPEAT" then
      match decimal a, parseTokens (b :: rest) with
      | some n, some line => some (.rep n line)
      | _, _ => none
    else if upperCase m = "NOTE_ON" ∧ b = "," then
      match slotOperand a, rest with
      | some s, [c] => (noteOperand c).map fun n => .command (.noteOn s n)
      | _, _ => none
    else none

/-- The line a text line spells; `some none` for a blank line or a comment, `none` for no line of R80. -/
def parseLine (text : String) : Option (Option AsmLine) :=
  match tokensFrom text.toList [] with
  | [] => some none
  | ts => (parseTokens ts).map some

end Sys2Proof.Machine
end

