-- ==== Sys2Proof/Safety.lean ====
section
/-!
DEFINITION. What counts as a safe run, in the terms the statements use.
-/

namespace Sys2Proof.Machine

/-- The block is in operation: a RESET has been taken (R221) and the invariants of R42 hold. -/
abbrev State.Ready (s : State) : Prop := s.resetDone = true ∧ s.Legal

/-- The slot is sounding (R29). -/
abbrev State.Sounding (s : State) (i : Nat) : Prop :=
  ∃ v, s.voices[i]? = some v ∧ v.active = true

/-- No slot is sounding (R186). -/
abbrev State.Silent (s : State) : Prop := ∀ v ∈ s.voices, v.active = false

/-- A step from `s` completes: it neither faults nor is refused. -/
abbrev State.Steps (s : State) : Prop := ∃ t, step s = .next t

/-- Two slots that sound alike: both Idle, whatever they hold, or the same sounding slot. The other
fields of an Idle slot are stale and never read (R29). -/
def Voice.SoundsLike (v u : Voice) : Prop := u.active = v.active ∧ (v.active = true → u = v)

/-- Two states that differ at most in the stale fields of Idle slots (R29). -/
def State.SoundsLike (s t : State) : Prop :=
  t = s.setVoices t.voices ∧ List.Forall₂ Voice.SoundsLike s.voices t.voices

/-- The same state with other values of the two parameters no rule reads (R52, R226). -/
def State.relabel (byteOrder : Option ByteOrder) (deadline : Duration) (s : State) : State :=
  { s with config := { s.config with hostByteOrder := byteOrder, tickDeadline := deadline } }

end Sys2Proof.Machine
end

