-- ==== Sys2Proof/Certificates/Slice0/Obligations.lean ====
section
/-!
DEFINITION. The statements about the block, for the provers. Each docstring names the rule it formalises.
-/

open Sys2Proof Sys2Proof.Machine

/-! ### Encoding -/

/-- Words of `95_test_vectors.md` 2.1, written out from R70 and R73, decode to what they stand for. -/
def Obligations.DecodesWordsOfTheMap : Prop :=
  decode 0x0000 = .instr .nop ∧ decode 0x1009 = .instr (.noteOn 0 9) ∧
    decode 0x1F0B = .instr (.noteOn 15 11) ∧ decode 0x2F00 = .instr (.noteOff 15) ∧
    decode 0x3000 = .instr .octUp ∧ decode 0x4000 = .instr .octDown ∧
    decode 0x5000 = .instr .waveCycle ∧ decode 0x6000 = .instr .filtToggle ∧
    decode 0x7000 = .instr .cutUp ∧ decode 0x8000 = .instr .cutDown ∧
    decode 0x9000 = .instr .resUp ∧ decode 0xA000 = .instr .resDown ∧ decode 0xB000 = .instr .clrOvf ∧
    decode 0x100C = .reserved 0x100C ∧ decode 0x1010 = .reserved 0x1010 ∧
    decode 0x2001 = .reserved 0x2001 ∧ decode 0x3001 = .reserved 0x3001 ∧ decode 0xC000 = .reserved 0xC000

/-- Decoding the word of a well-formed command gives the command, for every operand (R71, R73, R74). -/
def Obligations.DecodeOfEncodeIsTheCommand : Prop :=
  ∀ i : Instr, i.wellFormed = true → decode (encode i) = .instr i

/-- A word that decodes to a command is that command's word, and the command is well formed: no word is
a second spelling of a command (R73, R74). -/
def Obligations.EncodeOfDecodeIsTheWord : Prop :=
  ∀ (w : CmdWord) (i : Instr), decode w = .instr i → encode i = w ∧ i.wellFormed = true

/-- R75: which words are RESERVED; one is accepted like any word and changes nothing when applied. -/
def Obligations.ReservedWordsAreExactlyTheRest : Prop :=
  (∀ w : CmdWord, decode w = .reserved w ↔
    (12 ≤ field w 15 12 ∨ field w 7 4 ≠ 0 ∨
      (field w 11 8 ≠ 0 ∧ field w 15 12 ≠ 1 ∧ field w 15 12 ≠ 2) ∨
      (field w 3 0 ≠ 0 ∧ field w 15 12 ≠ 1) ∨ (field w 15 12 = 1 ∧ 12 ≤ field w 3 0))) ∧
  (∀ w w' : CmdWord, decode w = .reserved w' → w' = w) ∧
  (∀ (w : CmdWord) (s : State), decode w = .reserved w →
    applyWord w s = .next s ∧
      (s.fifoCount < s.config.cmdFifoDepth → (cmdWrite w s).fifo = s.fifo ++ [w]))

/-- R73: a word is the command of a row exactly when it has the row's `match` under the row's `mask` and
the extra condition holds; a slot `>= NUM_VOICES` decodes as the command and is ignored when applied. -/
def Obligations.OpcodeMapMatchAndMask : Prop :=
  (∀ w : CmdWord,
    (decode w = .instr .nop ↔ w &&& 0xFFFF = 0x0000) ∧
    ((∃ slot note, decode w = .instr (.noteOn slot note)) ↔ w &&& 0xF0F0 = 0x1000 ∧ field w 3 0 ≤ 11) ∧
    ((∃ slot, decode w = .instr (.noteOff slot)) ↔ w &&& 0xF0FF = 0x2000) ∧
    (decode w = .instr .octUp ↔ w &&& 0xFFFF = 0x3000) ∧
    (decode w = .instr .octDown ↔ w &&& 0xFFFF = 0x4000) ∧
    (decode w = .instr .waveCycle ↔ w &&& 0xFFFF = 0x5000) ∧
    (decode w = .instr .filtToggle ↔ w &&& 0xFFFF = 0x6000) ∧
    (decode w = .instr .cutUp ↔ w &&& 0xFFFF = 0x7000) ∧
    (decode w = .instr .cutDown ↔ w &&& 0xFFFF = 0x8000) ∧
    (decode w = .instr .resUp ↔ w &&& 0xFFFF = 0x9000) ∧
    (decode w = .instr .resDown ↔ w &&& 0xFFFF = 0xA000) ∧
    (decode w = .instr .clrOvf ↔ w &&& 0xFFFF = 0xB000)) ∧
  (∀ (s : State) (slot note : BitVec 4), s.config.numVoices ≤ slot.toNat →
    exec (.noteOn slot note) s = .next s ∧ exec (.noteOff slot) s = .next s)

/-! ### The commands -/

/-- R150: NOP does nothing; its word 0x0000 still takes a FIFO entry until the next TICK. -/
def Obligations.NopDoesNothing : Prop :=
  (∀ s : State, exec .nop s = .next s) ∧ (∀ w : CmdWord, decode w = .instr .nop ↔ w = 0x0000) ∧
  (∀ s : State, s.fifoCount < s.config.cmdFifoDepth → (cmdWrite 0x0000 s).fifoCount = s.fifoCount + 1) ∧
  (runOps [.cmdWrite 0x0000, .statusRead, .tick, .statusRead] State.reset).map Prod.fst =
    some [.status 0x00000001, .sample 0, .status 0x00000000]

/-- R140: what NOTE_ON writes, from Idle and from Sounding alike, and nothing else; a slot
`>= NUM_VOICES` is ignored; its words; the first sample of the voice, the rule's example, and the order of
a NOTE_ON and an OCT_UP in one TICK. -/
def Obligations.NoteOnStartsTheSlot : Prop :=
  (∀ (s : State) (slot note : BitVec 4), note.toNat ≤ 11 →
    ∃ t, exec (.noteOn slot note) s = .next t ∧ t = { s with voices := t.voices } ∧
      t.voices.length = s.voices.length ∧
      (∀ i, i ≠ slot.toNat → t.voices[i]? = s.voices[i]?) ∧
      (s.config.numVoices ≤ slot.toNat → t = s) ∧
      (slot.toNat < s.config.numVoices → slot.toNat < s.voices.length →
        t.voices[slot.toNat]? =
          some { active := true, note := note, voct := s.octave, p := 0, l := 0, b := 0 })) ∧
  osc 0 .sine = 0 ∧ osc 0 .square = 16777216 ∧ osc 0 .saw = -16777216 ∧
  (∀ (w : CmdWord) (slot note : BitVec 4), decode w = .instr (.noteOn slot note) ↔
    w &&& 0xF0F0 = 0x1000 ∧ field w 3 0 ≤ 11 ∧ slot.toNat = field w 11 8 ∧ note.toNat = field w 3 0) ∧
  (∀ w : CmdWord, w &&& 0xF0F0 = 0x1000 → 11 < field w 3 0 → decode w = .reserved w) ∧
  (runOps [.cmdWrite 0x1009, .tick] State.reset).map (fun r => (r.1, r.2.voices[0]?)) =
    some ([.sample 0], some { active := true, note := 9, voct := 4, p := 42852281, l := 0, b := 0 }) ∧
  (runOps [.cmdWrite 0x3000, .cmdWrite 0x1009, .tick] State.reset).map
      (fun r => r.2.voices[0]?.map Voice.voct) = some (some 5) ∧
  (runOps [.cmdWrite 0x1009, .cmdWrite 0x3000, .tick] State.reset).map
      (fun r => r.2.voices[0]?.map Voice.voct) = some (some 4)

/-- R141: NOTE_OFF clears `ACTIVE` of its slot and writes nothing else; an Idle slot stays as it is; ON
then OFF leaves the slot Idle and contributing nothing to the sample, OFF then ON leaves it Sounding from phase
0; its words and example. -/
def Obligations.NoteOffEndsTheSlot : Prop :=
  (∀ (s : State) (slot : BitVec 4),
    ∃ t, exec (.noteOff slot) s = .next t ∧ t = { s with voices := t.voices } ∧
      t.voices.length = s.voices.length ∧
      (∀ i, i ≠ slot.toNat → t.voices[i]? = s.voices[i]?) ∧
      (s.config.numVoices ≤ slot.toNat → t = s) ∧
      (slot.toNat < s.config.numVoices →
        t.voices[slot.toNat]? = s.voices[slot.toNat]?.map fun v => { v with active := false }) ∧
      ((∀ v, s.voices[slot.toNat]? = some v → v.active = false) → t = s)) ∧
  (∀ (s u t : State) (slot note : BitVec 4), exec (.noteOn slot note) s = .next u →
    exec (.noteOff slot) u = .next t → slot.toNat < s.config.numVoices →
    ∀ v, t.voices[slot.toNat]? = some v → v.active = false ∧ laneSample (laneInputs t) v = 0) ∧
  (∀ (s u t : State) (slot note : BitVec 4), note.toNat ≤ 11 → exec (.noteOff slot) s = .next u →
    exec (.noteOn slot note) u = .next t → slot.toNat < s.config.numVoices →
    ∀ v, t.voices[slot.toNat]? = some v → v.active = true ∧ v.p = 0) ∧
  (∀ (w : CmdWord) (slot : BitVec 4), decode w = .instr (.noteOff slot) ↔
    w &&& 0xF0FF = 0x2000 ∧ slot.toNat = field w 11 8) ∧
  (runOps [.cmdWrite 0x1009, .tick, .cmdWrite 0x2000, .tick] State.reset).map
      (fun r => (r.1, r.2.voices[0]?.map Voice.active)) = some ([.sample 0, .sample 0], some false) ∧
  (runOps [.cmdWrite 0x5000, .cmdWrite 0x1009, .cmdWrite 0x2000, .tick] State.reset).map
      (fun r => (r.1, r.2.voices[0]?.map Voice.active)) = some ([.sample 0], some false)

/-- R144: a NOTE_ON or NOTE_OFF to a slot `>= NUM_VOICES` changes no state and sets no flag; at the
default `NUM_VOICES` every slot value is in range. -/
def Obligations.AbsentSlotsAreIgnored : Prop :=
  (∀ (s : State) (slot note : BitVec 4), s.config.numVoices ≤ slot.toNat →
    exec (.noteOn slot note) s = .next s ∧ exec (.noteOff slot) s = .next s) ∧
  (∀ slot : BitVec 4, slot.toNat < Config.default.numVoices)

/-- THE MODEL'S CHOICE (log 10), resting on R75: a term `noteOn` with note 12..15 acts as the RESERVED
word it would be written as. -/
def Obligations.IllFormedNoteOnActsAsItsReservedWord : Prop :=
  ∀ (s : State) (slot note : BitVec 4), 11 < note.toNat →
    decode (encode (.noteOn slot note)) = .reserved (encode (.noteOn slot note)) ∧
      exec (.noteOn slot note) s = .next s ∧ applyWord (encode (.noteOn slot note)) s = .next s

/-- R151, R152: OCT_UP and OCT_DOWN move `OCTAVE` by one, clamped at 6 and 0, and write nothing else, so a
sounding voice keeps its `VOCT`; the rules' words and examples. -/
def Obligations.OctaveMovesByOneWithinItsBounds : Prop :=
  (∀ s : State, ∃ t, exec .octUp s = .next t ∧ t = { s with octave := t.octave } ∧
    t.octave.toNat = min (s.octave.toNat + 1) 6) ∧
  (∀ s : State, ∃ t, exec .octDown s = .next t ∧ t = { s with octave := t.octave } ∧
    (t.octave.toNat : Int) = max ((s.octave.toNat : Int) - 1) 0) ∧
  (∀ w : CmdWord, decode w = .instr .octUp ↔ w = 0x3000) ∧
  (∀ w : CmdWord, decode w = .instr .octDown ↔ w = 0x4000) ∧
  (runOps (List.replicate 3 (PortOp.cmdWrite 0x3000) ++ [PortOp.tick]) State.reset).map (fun r => r.2.octave) = some 6 ∧
  (runOps (List.replicate 6 (PortOp.cmdWrite 0x4000) ++ [PortOp.tick]) State.reset).map (fun r => r.2.octave) = some 0

/-- R153: WAVE_CYCLE moves `WAVE` to `(WAVE + 1) mod 3` and writes nothing else; three of them give the
waveform back; a TICK that applies one evaluates every voice with the new waveform at its phase; the rule's
word and example. -/
def Obligations.WaveCyclesThroughThreeWaveforms : Prop :=
  (∀ s : State, ∃ t, exec .waveCycle s = .next t ∧ t = { s with wave := t.wave } ∧
    t.wave.code.toNat = (s.wave.code.toNat + 1) % 3) ∧
  (∀ s t u v : State, exec .waveCycle s = .next t → exec .waveCycle t = .next u →
    exec .waveCycle u = .next v → v = s) ∧
  (∀ (s t : State) (rest : List PortOp), s.Ready → s.pending = .tick :: rest → s.fifo = [0x5000] →
    exec .waveCycle ((s.setPending rest).setFifo []) = .next t →
    t.voices = s.voices ∧ step s = .next (produceSample t)) ∧
  (∀ w : CmdWord, decode w = .instr .waveCycle ↔ w = 0x5000) ∧
  (runOps [.cmdWrite 0x5000, .cmdWrite 0x5000, .tick] State.reset).map (fun r => r.2.wave.code) = some 2

/-- R154: FILT_TOGGLE flips `FILT_EN` and writes nothing else, so every voice's `L` and `B` stay; two of
them cancel; the rule's word and example. -/
def Obligations.FilterToggleFlipsTheEnable : Prop :=
  (∀ s : State, ∃ t, exec .filtToggle s = .next t ∧ t = { s with filtEn := t.filtEn } ∧
    bit t.filtEn = 1 - bit s.filtEn) ∧
  (∀ s t u : State, exec .filtToggle s = .next t → exec .filtToggle t = .next u → u = s) ∧
  (∀ w : CmdWord, decode w = .instr .filtToggle ↔ w = 0x6000) ∧
  (runOps [.cmdWrite 0x6000, .cmdWrite 0x6000, .cmdWrite 0x1009, .tick, .tick, .tick] State.reset).map Prod.fst =
    some [.sample 0, .sample 1051060, .sample 2097989]

/-- R155, R156: CUT_UP and CUT_DOWN move `CUTOFF` by 100 Hz, clamped at 5000 and 100, whether or not the
filter is on, and write nothing else; a TICK that applies one evaluates every voice with the new coefficient;
the rules' words and examples. -/
def Obligations.CutoffMovesByOneStepWithinItsBounds : Prop :=
  (∀ s : State, ∃ t, exec .cutUp s = .next t ∧ t = { s with cutoff := t.cutoff } ∧
    t.cutoff.toNat = min (s.cutoff.toNat + 100) 5000) ∧
  (∀ s : State, ∃ t, exec .cutDown s = .next t ∧ t = { s with cutoff := t.cutoff } ∧
    (t.cutoff.toNat : Int) = max ((s.cutoff.toNat : Int) - 100) 100) ∧
  (∀ (s t : State) (rest : List PortOp), s.Ready → s.pending = .tick :: rest →
    (s.fifo = [0x7000] ∧ exec .cutUp ((s.setPending rest).setFifo []) = .next t ∨
      s.fifo = [0x8000] ∧ exec .cutDown ((s.setPending rest).setFifo []) = .next t) →
    step s = .next (produceSample t) ∧ (laneInputs t).coefs.f = coefF s.config.fs t.cutoff.toNat) ∧
  (∀ w : CmdWord, decode w = .instr .cutUp ↔ w = 0x7000) ∧
  (∀ w : CmdWord, decode w = .instr .cutDown ↔ w = 0x8000) ∧
  (runOps (List.replicate 3 (List.replicate 16 (PortOp.cmdWrite 0x7000) ++ [PortOp.tick])).flatten State.reset).map
      (fun r => r.2.cutoff) = some 5000 ∧
  (runOps (List.replicate 12 (PortOp.cmdWrite 0x8000) ++ [PortOp.tick]) State.reset).map (fun r => r.2.cutoff) = some 100

/-- R157, R158: RES_UP and RES_DOWN move `RES_IDX` by one, clamped at 15 and 0, and write nothing else; the
rules' words and examples. -/
def Obligations.ResonanceMovesByOneWithinItsBounds : Prop :=
  (∀ s : State, ∃ t, exec .resUp s = .next t ∧ t = { s with resIdx := t.resIdx } ∧
    t.resIdx.toNat = min (s.resIdx.toNat + 1) 15) ∧
  (∀ s : State, ∃ t, exec .resDown s = .next t ∧ t = { s with resIdx := t.resIdx } ∧
    (t.resIdx.toNat : Int) = max ((s.resIdx.toNat : Int) - 1) 0) ∧
  (∀ w : CmdWord, decode w = .instr .resUp ↔ w = 0x9000) ∧
  (∀ w : CmdWord, decode w = .instr .resDown ↔ w = 0xA000) ∧
  (runOps (List.replicate 16 (PortOp.cmdWrite 0x9000) ++ [PortOp.tick]) State.reset).map (fun r => r.2.resIdx) = some 15 ∧
  (runOps [.cmdWrite 0xA000, .tick] State.reset).map (fun r => r.2.resIdx) = some 0

/-- R159: CLR_OVF clears `OVF` when it is applied, and writes nothing else; a CLR_OVF written to a full FIFO
is itself dropped; the rule's word and example, a drop before and a drop after the flag is cleared. -/
def Obligations.ClearOverflowClearsTheFlag : Prop :=
  (∀ s : State, ∃ t, exec .clrOvf s = .next t ∧ t = { s with ovf := t.ovf } ∧ t.ovf = false) ∧
  (∀ w : CmdWord, decode w = .instr .clrOvf ↔ w = 0xB000) ∧
  (∀ s : State, s.config.cmdFifoDepth ≤ s.fifoCount →
    (cmdWrite 0xB000 s).fifo = s.fifo ∧ (cmdWrite 0xB000 s).ovf = true) ∧
  (runOps (List.replicate 17 (PortOp.cmdWrite 0x0000) ++
      [PortOp.tick, .cmdWrite 0xB000, .tick, .statusRead]) State.reset).map Prod.fst =
    some [.sample 0, .sample 0, .status 0x00000000] ∧
  (runOps ([PortOp.cmdWrite 0xB000] ++ List.replicate 16 (PortOp.cmdWrite 0x0000) ++
      [PortOp.statusRead, .tick, .statusRead]) State.reset).map Prod.fst =
    some [.status 0x00000110, .sample 0, .status 0x00000000] ∧
  (runOps ([PortOp.cmdWrite 0xB000, .tick] ++ List.replicate 17 (PortOp.cmdWrite 0x0000) ++
      [PortOp.statusRead]) State.reset).map Prod.fst = some [.sample 0, .status 0x00000110]

/-- The frame of every command (R22 "written by", R29, R30, R36, R40, R162): a register, a flag or a slot
that differs afterwards is one the command is named to write. -/
def Obligations.CommandsWriteOnlyTheirRegisters : Prop :=
  ∀ (i : Instr) (s t : State), exec i s = .next t →
    (t.octave ≠ s.octave → i = .octUp ∨ i = .octDown) ∧
    (t.wave ≠ s.wave → i = .waveCycle) ∧
    (t.filtEn ≠ s.filtEn → i = .filtToggle) ∧
    (t.cutoff ≠ s.cutoff → i = .cutUp ∨ i = .cutDown) ∧
    (t.resIdx ≠ s.resIdx → i = .resUp ∨ i = .resDown) ∧
    (t.ovf ≠ s.ovf → i = .clrOvf ∧ t.ovf = false) ∧
    (∀ k, t.voices[k]? ≠ s.voices[k]? →
      (∃ slot note, i = .noteOn slot note ∧ slot.toNat = k) ∨ ∃ slot, i = .noteOff slot ∧ slot.toNat = k) ∧
    t.voices.length = s.voices.length ∧ t.config = s.config ∧ t.fifo = s.fifo ∧
    t.resetDone = s.resetDone ∧ t.pending = s.pending ∧ t.output = s.output

/-- Repeating a step command saturates its register at the bound and never wraps (R23, R26, R27, R162). -/
def Obligations.RepeatedStepsSaturate : Prop :=
  ∀ (n : Nat) (s : State), s.Legal →
    (∃ t, drainWords (List.replicate n 0x3000) s = .next t ∧ t.octave.toNat = min (s.octave.toNat + n) 6) ∧
    (∃ t, drainWords (List.replicate n 0x4000) s = .next t ∧ t.octave.toNat = s.octave.toNat - n) ∧
    (∃ t, drainWords (List.replicate n 0x7000) s = .next t ∧
      t.cutoff.toNat = min (s.cutoff.toNat + 100 * n) 5000) ∧
    (∃ t, drainWords (List.replicate n 0x8000) s = .next t ∧
      t.cutoff.toNat = max (s.cutoff.toNat - 100 * n) 100) ∧
    (∃ t, drainWords (List.replicate n 0x9000) s = .next t ∧ t.resIdx.toNat = min (s.resIdx.toNat + n) 15) ∧
    (∃ t, drainWords (List.replicate n 0xA000) s = .next t ∧ t.resIdx.toNat = s.resIdx.toNat - n)

/-! ### The step, the TICK and the mixer -/

/-- A step runs the decoded command (R161, R181): when the sink's TICK is next and the oldest word of the
FIFO decodes to `i`, the step is the rest of the TICK from the state `exec i` answers; a RESERVED word is
passed over; with an empty FIFO the sample is produced. The fourth clause is THE MODEL'S CHOICE (log 2 and
log 18; no rule of the spec places a word): a word placed by `withFetchWord` runs alone, before the sample. -/
def Obligations.StepRunsTheDecodedCommand : Prop :=
  (∀ (s t : State) (i : Instr) (w : CmdWord) (ws : List CmdWord) (rest : List PortOp), s.Ready →
    s.pending = .tick :: rest → s.fifo = w :: ws → decode w = .instr i →
    exec i ((s.setPending rest).setFifo ws) = .next t → step s = tick t) ∧
  (∀ (s : State) (w : CmdWord) (ws : List CmdWord) (rest : List PortOp), s.Ready →
    s.pending = .tick :: rest → s.fifo = w :: ws → decode w = .reserved w →
    step s = tick ((s.setPending rest).setFifo ws)) ∧
  (∀ (s : State) (rest : List PortOp), s.Ready → s.pending = .tick :: rest → s.fifo = [] →
    step s = .next (produceSample (s.setPending rest))) ∧
  (∀ (s t : State) (i : Instr) (w : Nat), s.Ready → decodeTableWord 16 w = some i →
    exec i (s.setFifo []) = .next t → step (s.withFetchWord 16 w) = .next (produceSample t))

/-- R181: a TICK applies every accepted word, oldest first, each complete before the next; then evaluates
every sounding slot with the registers as they now stand, taking the sample before the phase advances;
and emits the clamped sum. Idle slots and all other state stay as the commands left them. The rule's example. -/
def Obligations.TickAppliesEvaluatesAndMixes : Prop :=
  (∀ s : State, drainWords [] s = .next s) ∧
  (∀ (w : CmdWord) (ws : List CmdWord) (s u : State), applyWord w (s.setFifo ws) = .next u →
    drainWords (w :: ws) s = drainWords ws u) ∧
  (∀ (s : State) (rest : List PortOp), s.Ready → s.pending = .tick :: rest →
    ∃ u t, drainWords s.fifo (s.setPending rest) = .next u ∧ step s = .next t ∧
      t = { u with voices := t.voices, output := t.output } ∧ t.fifo = [] ∧
      t.voices.length = u.voices.length ∧
      let c : Coefficients :=
        { f := 2 * sinU (BitVec.ofNat 32 (u.cutoff.toNat * 2 ^ 31 / u.config.fs))
          qd := (16 - (u.resIdx.toNat : Int)) * 2 ^ 21 }
      let x : Voice → Int := fun v => osc v.p u.wave
      let r : Voice → SvfResult := fun v => svf (x v) v.l.toInt v.b.toInt c
      let y : Voice → Int := fun v => if u.filtEn = true then (r v).y else x v
      (∃ out : Word32, t.output = .sample out ∧
        out.toInt = max (-16777216) (min 16777216 ((u.voices.filter (·.active)).map y).sum)) ∧
      (∀ (k : Nat) (v : Voice), u.voices[k]? = some v →
        (v.active = false → t.voices[k]? = some v) ∧
        (v.active = true → t.voices[k]? = some { v with
          p := BitVec.ofNat 32 (v.p.toNat + freqRom u.config.fs v.voct.toNat v.note.toNat)
          l := if u.filtEn = true then BitVec.ofInt 32 (r v).l else v.l
          b := if u.filtEn = true then BitVec.ofInt 32 (r v).b else v.b }))) ∧
  (runOps [.cmdWrite 0x1009, .tick, .tick, .tick, .tick] State.reset).map Prod.fst =
    some [.sample 0, .sample 1051060, .sample 2097989, .sample 3136679]

/-- R59: an accepted word is applied by the next TICK, once, after every word accepted before it; a word
dropped because the FIFO was full is never applied; a RESET discards the words not yet applied. -/
def Obligations.AcceptedWordsAreAppliedInOrder : Prop :=
  (∀ (s : State) (w : CmdWord) (rest : List PortOp), s.Ready →
    s.fifoCount < s.config.cmdFifoDepth → s.pending = .cmdWrite w :: .tick :: rest →
    ∃ u v, drainWords s.fifo (s.setPending rest) = .next u ∧ applyWord w u = .next v ∧
      Host.Core.run core 2 s = .next (produceSample v)) ∧
  (∀ (s : State) (w : CmdWord) (rest : List PortOp), s.Ready →
    s.config.cmdFifoDepth ≤ s.fifoCount → s.pending = .cmdWrite w :: .tick :: rest →
    ∃ u, drainWords s.fifo ((raiseOvf s).setPending rest) = .next u ∧
      Host.Core.run core 2 s = .next (produceSample u)) ∧
  (∀ (s : State) (w : CmdWord) (rest : List PortOp), s.Ready →
    s.pending = .cmdWrite w :: .reset :: .tick :: rest →
    Host.Core.run core 3 s = .next (((State.resetValues s.config).setPending rest).setOutput (.sample 0)))

/-- R181 (d), R182, R183: the order of the slots does not change the sample. -/
def Obligations.SlotOrderDoesNotChangeTheSample : Prop :=
  ∀ (s : State) (vs : List Voice) (rest : List PortOp), s.Ready → s.pending = .tick :: rest →
    s.fifo = [] → s.voices.Perm vs →
    ∃ t t', step s = .next t ∧ step (s.setVoices vs) = .next t' ∧ t'.output = t.output ∧
      t.voices.Perm t'.voices

/-- R185: the sample of every TICK is a word in `[-16777216, 16777216]`. -/
def Obligations.EverySampleIsWithinFullScale : Prop :=
  ∀ (s : State) (rest : List PortOp), s.Ready → s.pending = .tick :: rest →
    ∃ t out, step s = .next t ∧ t.output = .sample out ∧ -16777216 ≤ out.toInt ∧ out.toInt ≤ 16777216

/-- R184: every contribution fits 32 signed bits and the sum of the slots of a block in operation, at every
point of the loop over them, is at most `2^35` in magnitude and fits 37 signed bits. -/
def Obligations.MixAccumulatorNeverOverflows : Prop :=
  ∀ s : State, s.Ready →
    (∀ v : Voice, -(2 ^ 31) ≤ laneSample (laneInputs s) v ∧ laneSample (laneInputs s) v ≤ 2 ^ 31 - 1) ∧
      ∀ k : Nat, |mixSum (laneInputs s) (s.voices.take k)| ≤ 2 ^ 35 ∧
        -(2 ^ 36) ≤ mixSum (laneInputs s) (s.voices.take k) ∧
        mixSum (laneInputs s) (s.voices.take k) ≤ 2 ^ 36 - 1

/-- R186 and, for `ALL_OFF`, R81 and R223: with no sounding voice the sample is exactly 0; a TICK that
applies `ALL_OFF` leaves no voice sounding, returns 0 and keeps the settings. -/
def Obligations.SilenceIsExactlyZero : Prop :=
  (∀ (s : State) (rest : List PortOp), s.Ready → s.pending = .tick :: rest →
    (∀ u, drainWords s.fifo (s.setPending rest) = .next u → u.Silent) →
    ∃ t, step s = .next t ∧ t.output = .sample 0 ∧ t.Silent) ∧
  (∀ (s : State) (rest : List PortOp), s.Ready → s.pending = .tick :: rest →
    s.fifo.map PortOp.cmdWrite = AsmLine.allOff.expand s.config →
    ∃ t, step s = .next t ∧ t.output = .sample 0 ∧ t.Silent ∧ t.octave = s.octave ∧ t.wave = s.wave ∧
      t.filtEn = s.filtEn ∧ t.cutoff = s.cutoff ∧ t.resIdx = s.resIdx ∧ t.ovf = s.ovf)

/-- R112 with R109 and R182: over any number of TICKs, the k-th sample (k = 0 for the next TICK) of a voice
that sounds alone and unfiltered is exactly `OSC` at its phase plus `k` tuning words, modulo `2^32`. -/
def Obligations.SoloVoicePlaysItsWaveform : Prop :=
  ∀ (s : State) (i k : Nat) (v : Voice) (rest : List PortOp), s.Ready → s.fifo = [] →
    s.pending = List.replicate (k + 1) .tick ++ rest → s.filtEn = false →
    s.voices[i]? = some v → v.active = true →
    (∀ (j : Nat) (u : Voice), s.voices[j]? = some u → u.active = true → j = i) →
    ∃ t, Host.Core.run core (k + 1) s = .next t ∧ t.pending = rest ∧
      t.output = .sample (BitVec.ofInt 32
        (osc (BitVec.ofNat 32 (v.p.toNat + k * freqRom s.config.fs v.voct.toNat v.note.toNat)) s.wave)) ∧
      t.voices[i]? = some { v with
        p := BitVec.ofNat 32 (v.p.toNat + (k + 1) * freqRom s.config.fs v.voct.toNat v.note.toNat) }

/-- R187: `produce_block(n)` is n TICKs, from a block in operation it completes, and it returns n samples. -/
def Obligations.BlocksHaveOneSamplePerTick : Prop :=
  ∀ (n : Nat) (s : State) (rest : List PortOp), s.Ready → s.pending = List.replicate n .tick ++ rest →
    ∃ (out : List PortOutput) (t : State), produceBlock n (s.setPending rest) = some (out, t) ∧
      Host.Core.run core n s = .next t ∧ out.length = n ∧ ∀ o ∈ out, ∃ x, o = .sample x

/-! ### Oscillator, tuning words and filter -/

/-- R104: between ROM entries `i` and `i + 1` (entry 1023 toward entry 0) the sine is interpolated with a
floor shift, and lies between the two. -/
def Obligations.SineInterpolatesTheRom : Prop :=
  ∀ i frac : Nat, i < 1024 → frac < 2 ^ 22 →
    let a := sinRom i
    let b := sinRom ((i + 1) % 1024)
    let y := sinU (BitVec.ofNat 32 (i * 2 ^ 22 + frac))
    y = a + ⌊((b - a) * (frac : Int) : ℚ) / 2 ^ 22⌋ ∧ min a b ≤ y ∧ y ≤ max a b

/-- R109: no waveform leaves `[-ONE, ONE]`. -/
def Obligations.OscillatorStaysWithinFullScale : Prop :=
  ∀ (p : Word32) (w : Waveform), -16777216 ≤ osc p w ∧ osc p w ≤ 16777216

/-- R106, R107: the square is CRAB's square exactly, and the saw is CRAB's ramp rounded toward minus
infinity, for every phase; the examples of both rules. -/
def Obligations.SquareAndSawFollowTheReference : Prop :=
  (∀ p : Word32, (osc p .square : ℚ) = 2 ^ 24 * (if (p.toNat : ℚ) / 2 ^ 32 < 1 / 2 then 1 else -1)) ∧
  (∀ p : Word32, osc p .saw = ⌊(2 : ℚ) ^ 24 * (2 * ((p.toNat : ℚ) / 2 ^ 32) - 1)⌋) ∧
  osc 0x7FFFFFFF .square = 16777216 ∧ osc 0x80000000 .square = -16777216 ∧
  osc 0 .saw = -16777216 ∧ osc 0x80000000 .saw = 0 ∧ osc 0xFFFFFFFF .saw = 16777215

/-- The consequences R102 draws for the listing of R103: its zeros, its peaks and its two symmetries. -/
def Obligations.SineRomIsSymmetric : Prop :=
  sinRom 0 = 0 ∧ sinRom 512 = 0 ∧ sinRom 256 = 16777216 ∧ sinRom 768 = -16777216 ∧
    ∀ i ∈ List.range 1024, sinRom ((1024 - i) % 1024) = -sinRom i ∧
      sinRom ((1024 + 512 - i) % 1024) = sinRom i

/-- R93 with R90 and R91, over the reals: for every sample rate the model allows (log 8), each tuning word is
`freq_ref(n, o) * 2^32 / FS` rounded to the nearest integer, a half rounded up, and is below `2^31`; at the
default rate it is positive and the value lies more than 0.001 away from a half. -/
def Obligations.TuningWordsRoundTheReference : Prop :=
  ∀ fs o n : Nat, FS_MIN ≤ fs → o ≤ 6 → n ≤ 11 →
    (freqRom fs o n : ℤ) =
      ⌊440 * (2 : ℝ) ^ (((o : ℝ) - 4) + ((n : ℝ) - 9) / 12) * 2 ^ 32 / (fs : ℝ) + 1 / 2⌋ ∧
    freqRom fs o n < 2 ^ 31 ∧
    (fs = 44100 → 0 < freqRom fs o n ∧
      |440 * (2 : ℝ) ^ (((o : ℝ) - 4) + ((n : ℝ) - 9) / 12) * 2 ^ 32 / (fs : ℝ) - (freqRom fs o n : ℝ)| <
        1 / 2 - 1 / 1000)

/-- R95 with R90, for every sample rate the model allows (its own reading of R6, log 8): the frequency a word
plays lies within `FS / 2^33` of the reference; A4's word. -/
def Obligations.TuningIsAccurateToHalfAStep : Prop :=
  (∀ fs o n : Nat, FS_MIN ≤ fs → o ≤ 6 → n ≤ 11 →
    |(freqRom fs o n : ℝ) * fs / 2 ^ 32 - 440 * (2 : ℝ) ^ (((o : ℝ) - 4) + ((n : ℝ) - 9) / 12)| ≤
      (fs : ℝ) / 2 ^ 33) ∧
  freqRom 44100 4 9 = 42852281 ∧ |(42852281 : ℝ) * 44100 / 2 ^ 32 - 439.99999578| < 1 / 10 ^ 8

/-- R96, R97: the words increase with the octave and along the octave, and an octave doubles a word to
within one. -/
def Obligations.TuningWordsIncreaseAndDouble : Prop :=
  ∀ o ∈ List.range 7, ∀ n ∈ List.range 12,
    (n < 11 → freqRom 44100 o n < freqRom 44100 o (n + 1)) ∧
    (o < 6 → freqRom 44100 o n < freqRom 44100 (o + 1) n ∧ freqRom 44100 o 11 < freqRom 44100 (o + 1) 0 ∧
      freqRom 44100 (o + 1) n ≤ 2 * freqRom 44100 o n + 1 ∧
      2 * freqRom 44100 o n ≤ freqRom 44100 (o + 1) n + 1)

/-- R120 with R8: the three lines of the filter, each on unbounded integers with floor products and
saturated once to 32 signed bits. -/
def Obligations.FilterFollowsItsEquations : Prop :=
  ∀ x l b f qd : Int,
    let sat : Int → Int := fun v => max (-(2 ^ 31)) (min (2 ^ 31 - 1) v)
    let mul : Int → Int → Int := fun a c => ⌊((a * c : Int) : ℚ) / 2 ^ 24⌋
    let l1 := sat (l + mul f b)
    let h := sat (x - l1 - mul qd b)
    let b1 := sat (b + mul f h)
    svf x l b { f := f, qd := qd } = { y := l1, l := l1, b := b1 }

/-- R42, R132: whatever the input and the registers, the new register values fit the 32-bit registers, so
storing them loses nothing. -/
def Obligations.FilterRegistersHoldEveryResult : Prop :=
  ∀ (c : LaneInputs) (v : Voice), v.active = true → c.filtEn = true →
    let r := svf (osc v.p c.wave) v.l.toInt v.b.toInt c.coefs
    (laneVoice c v).l.toInt = r.l ∧ (laneVoice c v).b.toInt = r.b ∧
      -(2 ^ 31) ≤ r.l ∧ r.l ≤ 2 ^ 31 - 1 ∧ -(2 ^ 31) ≤ r.b ∧ r.b ≤ 2 ^ 31 - 1

/-- R130: the output does not depend on the input of the same call; the first filtered sample after a
NOTE_ON is 0 whatever the waveform; and with the filter on the input does reach the next output. -/
def Obligations.FilterOutputLagsOneSample : Prop :=
  (∀ (x x' l b : Int) (c : Coefficients), (svf x l b c).y = (svf x' l b c).y) ∧
  (∀ (c : LaneInputs) (octave : BitVec 3) (note : BitVec 4), c.filtEn = true →
    laneSample c (startedVoice octave note) = 0) ∧
  (∃ (x x' l b z : Int) (c : Coefficients),
    (svf z (svf x l b c).l (svf x l b c).b c).y ≠ (svf z (svf x' l b c).l (svf x' l b c).b c).y)

/-- R122, R123 and the tables of R125: the coefficients at `FS` = 44100 for every legal cutoff (100, 200, ...,
5000) and every resonance, the range R122 states for `F`, and R122's `PC < 2^30` for every `FS` the model allows
(its own reading of R6, log 8). -/
def Obligations.CoefficientsFollowTheTables : Prop :=
  ((List.range 25).map fun k => (cutoffPhase 44100 (100 * (k + 1)), coefF 44100 (100 * (k + 1)))) =
    [(4869577, 239030), (9739154, 478050), (14608732, 717046), (19478309, 956004),
      (24347887, 1194918), (29217464, 1433770), (34087042, 1672546), (38956619, 1911236),
      (43826196, 2149828), (48695774, 2388316), (53565351, 2626682), (58434929, 2864922),
      (63304506, 3103006), (68174084, 3340930), (73043661, 3578686), (77913238, 3816264),
      (82782816, 4053650), (87652393, 4290838), (92521971, 4527802), (97391548, 4764522),
      (102261126, 5001006), (107130703, 5237238), (112000280, 5473212), (116869858, 5708914),
      (121739435, 5944326)] ∧
  ((List.range 25).map fun k => (cutoffPhase 44100 (2600 + 100 * k), coefF 44100 (2600 + 100 * k))) =
    [(126609013, 6179414), (131478590, 6414190), (136348168, 6648648), (141217745, 6882776),
      (146087322, 7116562), (150956900, 7349994), (155826477, 7583016), (160696055, 7815660),
      (165565632, 8047914), (170435210, 8279768), (175304787, 8511208), (180174365, 8742226),
      (185043942, 8972772), (189913519, 9202854), (194783097, 9432480), (199652674, 9661634),
      (204522252, 9890308), (209391829, 10118490), (214261407, 10346138), (219130984, 10573240),
      (224000561, 10799814), (228870139, 11025852), (233739716, 11251340), (238609294, 11476270),
      (243478871, 11700606)] ∧
  ((List.range 16).map coefQD) =
    [33554432, 31457280, 29360128, 27262976, 25165824, 23068672, 20971520, 18874368,
      16777216, 14680064, 12582912, 10485760, 8388608, 6291456, 4194304, 2097152] ∧
  (∀ c : Nat, CutoffLegal c → 0 < coefF 44100 c ∧ coefF 44100 c ≤ 11700606) ∧
  (∀ fs c : Nat, FS_MIN ≤ fs → CutoffLegal c → cutoffPhase fs c < 2 ^ 30)

/-- R131: without rounding or saturation the filter is a linear map, and for every legal cutoff and resonance
at `FS` = 44100 both its poles lie strictly inside the unit circle. -/
def Obligations.EveryLegalFilterSettingIsStable : Prop :=
  ∀ (cutoff : Nat) (resIdx : BitVec 4), CutoffLegal cutoff →
    let f : ℝ := (coefF 44100 cutoff : ℝ) / 2 ^ 24
    let q : ℝ := (coefQD resIdx.toNat : ℝ) / 2 ^ 24
    ∀ z : ℂ, z ^ 2 - ((2 - f ^ 2 - f * q : ℝ) : ℂ) * z + ((1 - f * q : ℝ) : ℂ) = 0 → ‖z‖ < 1

/-! ### The ports -/

/-- R180: CMD_WRITE appends the word, whatever it is, when there is room, and otherwise drops it and sets
`OVF`; nothing else changes and it returns nothing; the rule's example. -/
def Obligations.CommandWritePushesOrDrops : Prop :=
  (∀ (s : State) (w : CmdWord) (rest : List PortOp), s.Ready → s.pending = .cmdWrite w :: rest →
    ∃ t, step s = .next t ∧ t = { s with fifo := t.fifo, ovf := t.ovf, pending := rest, output := .nothing } ∧
      (s.fifo.length < s.config.cmdFifoDepth → t.fifo = s.fifo ++ [w] ∧ t.ovf = s.ovf) ∧
      (s.fifo.length = s.config.cmdFifoDepth → t.fifo = s.fifo ∧ t.ovf = true)) ∧
  (runOps (List.replicate 17 (PortOp.cmdWrite 0x0000) ++ [PortOp.statusRead]) State.reset).map Prod.fst =
    some [.status 0x00000110]

/-- R190 with R35: STATUS_READ returns `FIFO_COUNT` in bits 4:0 and `OVF` in bit 8, every other bit 0, and has
no side effect; right after a TICK `FIFO_COUNT` is 0; after RESET the word is 0; the rule's example. -/
def Obligations.StatusReadShowsCountAndOverflow : Prop :=
  (∀ (s : State) (rest : List PortOp), s.Ready → s.pending = .statusRead :: rest →
    ∃ x : Word32, step s = .next { s with pending := rest, output := .status x } ∧
      x.toNat = s.fifo.length + 256 * bit s.ovf ∧
      field x 4 0 = s.fifo.length ∧ field x 7 5 = 0 ∧ field x 8 8 = bit s.ovf ∧ field x 31 9 = 0) ∧
  (∀ (s : State) (rest : List PortOp), s.Ready → s.pending = .tick :: .statusRead :: rest →
    ∃ (t : State) (x : Word32), Host.Core.run core 2 s = .next t ∧ t.output = .status x ∧ field x 4 0 = 0) ∧
  (runOps [.statusRead] State.reset).map Prod.fst = some [.status 0x00000000] ∧
  (runOps [.cmdWrite 0x1009, .cmdWrite 0x5000, .statusRead] State.reset).map Prod.fst =
    some [.status 0x00000002]

/-- R220: what RESET writes, from any state of a block in operation and from any state before its first RESET;
it produces no sample, and a TICK right after it returns 0. -/
def Obligations.ResetRestoresTheStartupState : Prop :=
  (∀ (s : State) (rest : List PortOp), s.config.Legal → (s.resetDone = true → s.Legal) →
    s.pending = .reset :: rest →
    ∃ t, step s = .next t ∧ t.octave = 4 ∧ t.wave.code = 0 ∧ t.filtEn = false ∧ t.cutoff = 1000 ∧
      t.resIdx = 0 ∧ t.voices.length = s.config.numVoices ∧
      (∀ v ∈ t.voices, v = { active := false, note := 0, voct := 0, p := 0, l := 0, b := 0 }) ∧
      t.fifo = [] ∧ t.ovf = false ∧ t.output = .nothing ∧ t.config = s.config ∧ t.pending = rest) ∧
  (∀ (s : State) (rest : List PortOp), s.config.Legal → (s.resetDone = true → s.Legal) →
    s.pending = .reset :: .tick :: rest →
    ∃ t, Host.Core.run core 2 s = .next t ∧ t.output = .sample 0)

/-- R221: before the first RESET the block takes no CMD_WRITE, TICK or STATUS_READ, and the RESET it takes
puts it in operation whatever its registers held (the parameters being legal). -/
def Obligations.PowerOnIsRefusedUntilReset : Prop :=
  ∀ (s : State) (rest : List PortOp), s.resetDone = false → s.config.Legal →
    (∀ w, s.pending = .cmdWrite w :: rest → step s = .refused .beforeFirstReset) ∧
    (s.pending = .tick :: rest → step s = .refused .beforeFirstReset) ∧
    (s.pending = .statusRead :: rest → step s = .refused .beforeFirstReset) ∧
    (s.pending = .reset :: rest →
      ∃ t, step s = .next t ∧ t.Ready ∧ t = (State.resetValues s.config).setPending rest)

/-- R214: from a state with an unreachable value no step is defined. -/
def Obligations.UnreachableStatesAreRefused : Prop :=
  ∀ (s : State) (op : PortOp) (rest : List PortOp), s.resetDone = true → s.pending = op :: rest →
    (s.octave.toNat = 7 ∨ ¬ (∃ k, 1 ≤ k ∧ k ≤ 50 ∧ s.cutoff.toNat = 100 * k) ∨
      (∃ v ∈ s.voices, v.active = true ∧ (11 < v.note.toNat ∨ 6 < v.voct.toNat)) ∨
      s.config.cmdFifoDepth < s.fifo.length) →
    step s = .refused .unreachableState

/-! ### The whole machine -/

/-- The state after RESET is in operation: the invariants of R42 hold at reset. -/
def Obligations.StateAfterResetIsReady : Prop :=
  State.reset.Ready ∧ State.reset.fifo = [] ∧ State.reset.Silent ∧
    ∀ c : Config, c.Legal → (State.resetValues c).Ready

/-- R42: every step of a block in operation leaves it in operation, with the invariants kept. -/
def Obligations.EveryStepKeepsTheInvariants : Prop :=
  ∀ s t : State, s.Ready → step s = .next t →
    t.Ready ∧ t.octave.toNat ≤ 6 ∧ t.wave.code.toNat ≤ 2 ∧
      (∃ k, 1 ≤ k ∧ k ≤ 50 ∧ t.cutoff.toNat = 100 * k) ∧ t.resIdx.toNat ≤ 15 ∧
      (∀ v ∈ t.voices, v.active = true → v.note.toNat ≤ 11 ∧ v.voct.toNat ≤ 6) ∧
      (∀ v ∈ t.voices, -(2 ^ 31) ≤ v.l.toInt ∧ v.l.toInt ≤ 2 ^ 31 - 1 ∧
        -(2 ^ 31) ≤ v.b.toInt ∧ v.b.toInt ≤ 2 ^ 31 - 1 ∧ v.p.toNat < 2 ^ 32) ∧
      t.voices.length = t.config.numVoices ∧ t.fifo.length ≤ t.config.cmdFifoDepth

/-- R62, R200: every request is taken: no step of a block in operation waits, faults or is refused, and it
takes exactly the oldest request. -/
def Obligations.EveryRequestIsTaken : Prop :=
  ∀ s : State, s.Ready → ∃ t, step s = .next t ∧ t.pending = s.pending.tail

/-- R5, R38, R43: the parameters are no state: no step writes them. -/
def Obligations.ParametersAreNeverWritten : Prop :=
  ∀ s t : State, step s = .next t → t.config = s.config

/-- R52, R229: no step depends on the byte order of a transport or on the deadline of a TICK. -/
def Obligations.ByteOrderAndDeadlineDoNotMatter : Prop :=
  ∀ (s : State) (o : Option ByteOrder) (d : Duration),
    (∀ t, step s = .next t → step (s.relabel o d) = .next (t.relabel o d)) ∧
      ∀ r, step s = .refused r → step (s.relabel o d) = .refused r

/-- R29, V7: the stale fields of an Idle slot are not observable: two blocks that differ only in them take the
same steps, return the same results, and go on differing at most in such fields. -/
def Obligations.IdleFieldsAreNeverHeard : Prop :=
  ∀ s t : State, s.Ready → s.SoundsLike t →
    ∃ s' t', step s = .next s' ∧ step t = .next t' ∧ s'.SoundsLike t' ∧ t'.output = s'.output

/-- R37, R211: a step of the host other than RESET leaves the registers and the voices alone. -/
def Obligations.HostStepsLeaveTheSoundAlone : Prop :=
  ∀ (s : State) (op : PortOp) (rest : List PortOp), s.Ready → s.pending = op :: rest →
    op.agent = .host → op ≠ .reset →
    ∃ t, step s = .next t ∧ t.octave = s.octave ∧ t.wave = s.wave ∧ t.filtEn = s.filtEn ∧
      t.cutoff = s.cutoff ∧ t.resIdx = s.resIdx ∧ t.voices = s.voices ∧ ∀ x, t.output ≠ .sample x

/-- R36: only a CMD_WRITE to a full FIFO sets `OVF`, which drops the word; only a CLR_OVF, applied by a TICK,
and RESET clear it. -/
def Obligations.OverflowFlagIsSticky : Prop :=
  ∀ (s t : State) (op : PortOp) (rest : List PortOp), s.Ready → s.pending = op :: rest → step s = .next t →
    (s.fifo.length = s.config.cmdFifoDepth → ∀ w, op = .cmdWrite w → t.ovf = true ∧ t.fifo = s.fifo) ∧
    (s.ovf = false → t.ovf = true → ∃ w, op = .cmdWrite w ∧ s.fifo.length = s.config.cmdFifoDepth) ∧
    (s.ovf = true → t.ovf = false → op = .reset ∨ (op = .tick ∧ 0xB000 ∈ s.fifo))

/-- R30: a slot's `NOTE` and `VOCT` are written only by a NOTE_ON to it, applied by a TICK, and by RESET. -/
def Obligations.CapturedPitchNeverMoves : Prop :=
  ∀ (s t : State) (op : PortOp) (rest : List PortOp) (i : Nat) (v u : Voice), s.Ready →
    s.pending = op :: rest → step s = .next t → s.voices[i]? = some v → t.voices[i]? = some u →
    (u.note ≠ v.note ∨ u.voct ≠ v.voct) →
    op = .reset ∨ (op = .tick ∧
      ∃ w ∈ s.fifo, ∃ slot note, decode w = .instr (.noteOn slot note) ∧ slot.toNat = i)

/-- R212, with the model's own reading of "takes no steps" (log 3): without a request the block keeps all its
state, the words waiting in the FIFO among it. -/
def Obligations.IdleBlockKeepsItsState : Prop :=
  ∀ (s : State) (k : Nat), s.pending = [] → Host.Core.run core k s = .next s

/-! ### Program notation -/

/-- R81: the expansions of the pseudo-operations; R80: a command line is the CMD_WRITE of its word. -/
def Obligations.PseudoOperationsExpand : Prop :=
  (∀ (c : Config) (n : Nat), (AsmLine.block n).expand c = List.replicate n .tick) ∧
  (∀ c : Config, AsmLine.allOff.expand c =
    (List.range c.numVoices).map fun k => .cmdWrite (encode (.noteOff (BitVec.ofNat 4 k)))) ∧
  (∀ (c : Config) (line : AsmLine), (AsmLine.rep 0 line).expand c = []) ∧
  (∀ (c : Config) (n : Nat) (line : AsmLine),
    (AsmLine.rep (n + 1) line).expand c = line.expand c ++ (AsmLine.rep n line).expand c) ∧
  (∀ (c : Config) (i : Instr), (AsmLine.command i).expand c = [.cmdWrite (encode i)])
end

