-- ==== Sys2Proof/Laws/State.lean ====
section
/-!
SUPPORT. One lemma per field per update of the state.
-/

namespace Sys2Proof.Machine.State

@[simp] theorem setOctave_config (s : State) (v : BitVec 3) : (s.setOctave v).config = s.config := rfl
@[simp] theorem setOctave_octave (s : State) (v : BitVec 3) : (s.setOctave v).octave = v := rfl
@[simp] theorem setOctave_wave (s : State) (v : BitVec 3) : (s.setOctave v).wave = s.wave := rfl
@[simp] theorem setOctave_filtEn (s : State) (v : BitVec 3) : (s.setOctave v).filtEn = s.filtEn := rfl
@[simp] theorem setOctave_cutoff (s : State) (v : BitVec 3) : (s.setOctave v).cutoff = s.cutoff := rfl
@[simp] theorem setOctave_resIdx (s : State) (v : BitVec 3) : (s.setOctave v).resIdx = s.resIdx := rfl
@[simp] theorem setOctave_voices (s : State) (v : BitVec 3) : (s.setOctave v).voices = s.voices := rfl
@[simp] theorem setOctave_fifo (s : State) (v : BitVec 3) : (s.setOctave v).fifo = s.fifo := rfl
@[simp] theorem setOctave_ovf (s : State) (v : BitVec 3) : (s.setOctave v).ovf = s.ovf := rfl
@[simp] theorem setOctave_resetDone (s : State) (v : BitVec 3) : (s.setOctave v).resetDone = s.resetDone := rfl
@[simp] theorem setOctave_pending (s : State) (v : BitVec 3) : (s.setOctave v).pending = s.pending := rfl
@[simp] theorem setOctave_output (s : State) (v : BitVec 3) : (s.setOctave v).output = s.output := rfl

@[simp] theorem setWave_config (s : State) (v : Waveform) : (s.setWave v).config = s.config := rfl
@[simp] theorem setWave_octave (s : State) (v : Waveform) : (s.setWave v).octave = s.octave := rfl
@[simp] theorem setWave_wave (s : State) (v : Waveform) : (s.setWave v).wave = v := rfl
@[simp] theorem setWave_filtEn (s : State) (v : Waveform) : (s.setWave v).filtEn = s.filtEn := rfl
@[simp] theorem setWave_cutoff (s : State) (v : Waveform) : (s.setWave v).cutoff = s.cutoff := rfl
@[simp] theorem setWave_resIdx (s : State) (v : Waveform) : (s.setWave v).resIdx = s.resIdx := rfl
@[simp] theorem setWave_voices (s : State) (v : Waveform) : (s.setWave v).voices = s.voices := rfl
@[simp] theorem setWave_fifo (s : State) (v : Waveform) : (s.setWave v).fifo = s.fifo := rfl
@[simp] theorem setWave_ovf (s : State) (v : Waveform) : (s.setWave v).ovf = s.ovf := rfl
@[simp] theorem setWave_resetDone (s : State) (v : Waveform) : (s.setWave v).resetDone = s.resetDone := rfl
@[simp] theorem setWave_pending (s : State) (v : Waveform) : (s.setWave v).pending = s.pending := rfl
@[simp] theorem setWave_output (s : State) (v : Waveform) : (s.setWave v).output = s.output := rfl

@[simp] theorem setFiltEn_config (s : State) (v : Bool) : (s.setFiltEn v).config = s.config := rfl
@[simp] theorem setFiltEn_octave (s : State) (v : Bool) : (s.setFiltEn v).octave = s.octave := rfl
@[simp] theorem setFiltEn_wave (s : State) (v : Bool) : (s.setFiltEn v).wave = s.wave := rfl
@[simp] theorem setFiltEn_filtEn (s : State) (v : Bool) : (s.setFiltEn v).filtEn = v := rfl
@[simp] theorem setFiltEn_cutoff (s : State) (v : Bool) : (s.setFiltEn v).cutoff = s.cutoff := rfl
@[simp] theorem setFiltEn_resIdx (s : State) (v : Bool) : (s.setFiltEn v).resIdx = s.resIdx := rfl
@[simp] theorem setFiltEn_voices (s : State) (v : Bool) : (s.setFiltEn v).voices = s.voices := rfl
@[simp] theorem setFiltEn_fifo (s : State) (v : Bool) : (s.setFiltEn v).fifo = s.fifo := rfl
@[simp] theorem setFiltEn_ovf (s : State) (v : Bool) : (s.setFiltEn v).ovf = s.ovf := rfl
@[simp] theorem setFiltEn_resetDone (s : State) (v : Bool) : (s.setFiltEn v).resetDone = s.resetDone := rfl
@[simp] theorem setFiltEn_pending (s : State) (v : Bool) : (s.setFiltEn v).pending = s.pending := rfl
@[simp] theorem setFiltEn_output (s : State) (v : Bool) : (s.setFiltEn v).output = s.output := rfl

@[simp] theorem setCutoff_config (s : State) (v : BitVec 16) : (s.setCutoff v).config = s.config := rfl
@[simp] theorem setCutoff_octave (s : State) (v : BitVec 16) : (s.setCutoff v).octave = s.octave := rfl
@[simp] theorem setCutoff_wave (s : State) (v : BitVec 16) : (s.setCutoff v).wave = s.wave := rfl
@[simp] theorem setCutoff_filtEn (s : State) (v : BitVec 16) : (s.setCutoff v).filtEn = s.filtEn := rfl
@[simp] theorem setCutoff_cutoff (s : State) (v : BitVec 16) : (s.setCutoff v).cutoff = v := rfl
@[simp] theorem setCutoff_resIdx (s : State) (v : BitVec 16) : (s.setCutoff v).resIdx = s.resIdx := rfl
@[simp] theorem setCutoff_voices (s : State) (v : BitVec 16) : (s.setCutoff v).voices = s.voices := rfl
@[simp] theorem setCutoff_fifo (s : State) (v : BitVec 16) : (s.setCutoff v).fifo = s.fifo := rfl
@[simp] theorem setCutoff_ovf (s : State) (v : BitVec 16) : (s.setCutoff v).ovf = s.ovf := rfl
@[simp] theorem setCutoff_resetDone (s : State) (v : BitVec 16) : (s.setCutoff v).resetDone = s.resetDone := rfl
@[simp] theorem setCutoff_pending (s : State) (v : BitVec 16) : (s.setCutoff v).pending = s.pending := rfl
@[simp] theorem setCutoff_output (s : State) (v : BitVec 16) : (s.setCutoff v).output = s.output := rfl

@[simp] theorem setResIdx_config (s : State) (v : BitVec 4) : (s.setResIdx v).config = s.config := rfl
@[simp] theorem setResIdx_octave (s : State) (v : BitVec 4) : (s.setResIdx v).octave = s.octave := rfl
@[simp] theorem setResIdx_wave (s : State) (v : BitVec 4) : (s.setResIdx v).wave = s.wave := rfl
@[simp] theorem setResIdx_filtEn (s : State) (v : BitVec 4) : (s.setResIdx v).filtEn = s.filtEn := rfl
@[simp] theorem setResIdx_cutoff (s : State) (v : BitVec 4) : (s.setResIdx v).cutoff = s.cutoff := rfl
@[simp] theorem setResIdx_resIdx (s : State) (v : BitVec 4) : (s.setResIdx v).resIdx = v := rfl
@[simp] theorem setResIdx_voices (s : State) (v : BitVec 4) : (s.setResIdx v).voices = s.voices := rfl
@[simp] theorem setResIdx_fifo (s : State) (v : BitVec 4) : (s.setResIdx v).fifo = s.fifo := rfl
@[simp] theorem setResIdx_ovf (s : State) (v : BitVec 4) : (s.setResIdx v).ovf = s.ovf := rfl
@[simp] theorem setResIdx_resetDone (s : State) (v : BitVec 4) : (s.setResIdx v).resetDone = s.resetDone := rfl
@[simp] theorem setResIdx_pending (s : State) (v : BitVec 4) : (s.setResIdx v).pending = s.pending := rfl
@[simp] theorem setResIdx_output (s : State) (v : BitVec 4) : (s.setResIdx v).output = s.output := rfl

@[simp] theorem setVoices_config (s : State) (v : List Voice) : (s.setVoices v).config = s.config := rfl
@[simp] theorem setVoices_octave (s : State) (v : List Voice) : (s.setVoices v).octave = s.octave := rfl
@[simp] theorem setVoices_wave (s : State) (v : List Voice) : (s.setVoices v).wave = s.wave := rfl
@[simp] theorem setVoices_filtEn (s : State) (v : List Voice) : (s.setVoices v).filtEn = s.filtEn := rfl
@[simp] theorem setVoices_cutoff (s : State) (v : List Voice) : (s.setVoices v).cutoff = s.cutoff := rfl
@[simp] theorem setVoices_resIdx (s : State) (v : List Voice) : (s.setVoices v).resIdx = s.resIdx := rfl
@[simp] theorem setVoices_voices (s : State) (v : List Voice) : (s.setVoices v).voices = v := rfl
@[simp] theorem setVoices_fifo (s : State) (v : List Voice) : (s.setVoices v).fifo = s.fifo := rfl
@[simp] theorem setVoices_ovf (s : State) (v : List Voice) : (s.setVoices v).ovf = s.ovf := rfl
@[simp] theorem setVoices_resetDone (s : State) (v : List Voice) : (s.setVoices v).resetDone = s.resetDone := rfl
@[simp] theorem setVoices_pending (s : State) (v : List Voice) : (s.setVoices v).pending = s.pending := rfl
@[simp] theorem setVoices_output (s : State) (v : List Voice) : (s.setVoices v).output = s.output := rfl

@[simp] theorem setFifo_config (s : State) (v : List CmdWord) : (s.setFifo v).config = s.config := rfl
@[simp] theorem setFifo_octave (s : State) (v : List CmdWord) : (s.setFifo v).octave = s.octave := rfl
@[simp] theorem setFifo_wave (s : State) (v : List CmdWord) : (s.setFifo v).wave = s.wave := rfl
@[simp] theorem setFifo_filtEn (s : State) (v : List CmdWord) : (s.setFifo v).filtEn = s.filtEn := rfl
@[simp] theorem setFifo_cutoff (s : State) (v : List CmdWord) : (s.setFifo v).cutoff = s.cutoff := rfl
@[simp] theorem setFifo_resIdx (s : State) (v : List CmdWord) : (s.setFifo v).resIdx = s.resIdx := rfl
@[simp] theorem setFifo_voices (s : State) (v : List CmdWord) : (s.setFifo v).voices = s.voices := rfl
@[simp] theorem setFifo_fifo (s : State) (v : List CmdWord) : (s.setFifo v).fifo = v := rfl
@[simp] theorem setFifo_ovf (s : State) (v : List CmdWord) : (s.setFifo v).ovf = s.ovf := rfl
@[simp] theorem setFifo_resetDone (s : State) (v : List CmdWord) : (s.setFifo v).resetDone = s.resetDone := rfl
@[simp] theorem setFifo_pending (s : State) (v : List CmdWord) : (s.setFifo v).pending = s.pending := rfl
@[simp] theorem setFifo_output (s : State) (v : List CmdWord) : (s.setFifo v).output = s.output := rfl

@[simp] theorem setOvf_config (s : State) (v : Bool) : (s.setOvf v).config = s.config := rfl
@[simp] theorem setOvf_octave (s : State) (v : Bool) : (s.setOvf v).octave = s.octave := rfl
@[simp] theorem setOvf_wave (s : State) (v : Bool) : (s.setOvf v).wave = s.wave := rfl
@[simp] theorem setOvf_filtEn (s : State) (v : Bool) : (s.setOvf v).filtEn = s.filtEn := rfl
@[simp] theorem setOvf_cutoff (s : State) (v : Bool) : (s.setOvf v).cutoff = s.cutoff := rfl
@[simp] theorem setOvf_resIdx (s : State) (v : Bool) : (s.setOvf v).resIdx = s.resIdx := rfl
@[simp] theorem setOvf_voices (s : State) (v : Bool) : (s.setOvf v).voices = s.voices := rfl
@[simp] theorem setOvf_fifo (s : State) (v : Bool) : (s.setOvf v).fifo = s.fifo := rfl
@[simp] theorem setOvf_ovf (s : State) (v : Bool) : (s.setOvf v).ovf = v := rfl
@[simp] theorem setOvf_resetDone (s : State) (v : Bool) : (s.setOvf v).resetDone = s.resetDone := rfl
@[simp] theorem setOvf_pending (s : State) (v : Bool) : (s.setOvf v).pending = s.pending := rfl
@[simp] theorem setOvf_output (s : State) (v : Bool) : (s.setOvf v).output = s.output := rfl

@[simp] theorem setPending_config (s : State) (v : List PortOp) : (s.setPending v).config = s.config := rfl
@[simp] theorem setPending_octave (s : State) (v : List PortOp) : (s.setPending v).octave = s.octave := rfl
@[simp] theorem setPending_wave (s : State) (v : List PortOp) : (s.setPending v).wave = s.wave := rfl
@[simp] theorem setPending_filtEn (s : State) (v : List PortOp) : (s.setPending v).filtEn = s.filtEn := rfl
@[simp] theorem setPending_cutoff (s : State) (v : List PortOp) : (s.setPending v).cutoff = s.cutoff := rfl
@[simp] theorem setPending_resIdx (s : State) (v : List PortOp) : (s.setPending v).resIdx = s.resIdx := rfl
@[simp] theorem setPending_voices (s : State) (v : List PortOp) : (s.setPending v).voices = s.voices := rfl
@[simp] theorem setPending_fifo (s : State) (v : List PortOp) : (s.setPending v).fifo = s.fifo := rfl
@[simp] theorem setPending_ovf (s : State) (v : List PortOp) : (s.setPending v).ovf = s.ovf := rfl
@[simp] theorem setPending_resetDone (s : State) (v : List PortOp) : (s.setPending v).resetDone = s.resetDone := rfl
@[simp] theorem setPending_pending (s : State) (v : List PortOp) : (s.setPending v).pending = v := rfl
@[simp] theorem setPending_output (s : State) (v : List PortOp) : (s.setPending v).output = s.output := rfl

@[simp] theorem setOutput_config (s : State) (v : PortOutput) : (s.setOutput v).config = s.config := rfl
@[simp] theorem setOutput_octave (s : State) (v : PortOutput) : (s.setOutput v).octave = s.octave := rfl
@[simp] theorem setOutput_wave (s : State) (v : PortOutput) : (s.setOutput v).wave = s.wave := rfl
@[simp] theorem setOutput_filtEn (s : State) (v : PortOutput) : (s.setOutput v).filtEn = s.filtEn := rfl
@[simp] theorem setOutput_cutoff (s : State) (v : PortOutput) : (s.setOutput v).cutoff = s.cutoff := rfl
@[simp] theorem setOutput_resIdx (s : State) (v : PortOutput) : (s.setOutput v).resIdx = s.resIdx := rfl
@[simp] theorem setOutput_voices (s : State) (v : PortOutput) : (s.setOutput v).voices = s.voices := rfl
@[simp] theorem setOutput_fifo (s : State) (v : PortOutput) : (s.setOutput v).fifo = s.fifo := rfl
@[simp] theorem setOutput_ovf (s : State) (v : PortOutput) : (s.setOutput v).ovf = s.ovf := rfl
@[simp] theorem setOutput_resetDone (s : State) (v : PortOutput) : (s.setOutput v).resetDone = s.resetDone := rfl
@[simp] theorem setOutput_pending (s : State) (v : PortOutput) : (s.setOutput v).pending = s.pending := rfl
@[simp] theorem setOutput_output (s : State) (v : PortOutput) : (s.setOutput v).output = v := rfl

end Sys2Proof.Machine.State
end

