-- ==== Sys2Proof/Laws/Arithmetic.lean ====
section
/-!
SUPPORT. The arithmetic of R8: what `clamp`, `sat32`, `asr` and `mulq` answer, and that a saturated
value survives being stored in a 32-bit register.
-/

namespace Sys2Proof.Machine

theorem clamp_bounds {lo hi : Int} (h : lo ≤ hi) (v : Int) : lo ≤ clamp lo hi v ∧ clamp lo hi v ≤ hi := by
  unfold clamp; split <;> [skip; split] <;> omega

theorem clamp_of_mem {lo hi v : Int} (hlo : lo ≤ v) (hhi : v ≤ hi) : clamp lo hi v = v := by
  unfold clamp; rw [if_neg (by omega), if_neg (by omega)]

theorem clamp_eq_max_min {lo hi : Int} (h : lo ≤ hi) (v : Int) : clamp lo hi v = max lo (min hi v) := by
  unfold clamp; split <;> [skip; split] <;> omega

theorem sat32_bounds (v : Int) : -2147483648 ≤ sat32 v ∧ sat32 v ≤ 2147483647 :=
  clamp_bounds (by decide) v

theorem sat32_of_mem {v : Int} (hlo : -2147483648 ≤ v) (hhi : v ≤ 2147483647) : sat32 v = v :=
  clamp_of_mem hlo hhi

/-- A value of 32 signed bits is read back from the register it is stored in. -/
theorem toInt_ofInt_of_mem {v : Int} (hlo : -2147483648 ≤ v) (hhi : v ≤ 2147483647) :
    (BitVec.ofInt 32 v).toInt = v := by
  rw [BitVec.toInt_ofInt]
  exact Int.bmod_eq_of_le (by omega) (by omega)

theorem toInt_ofInt_sat32 (v : Int) : (BitVec.ofInt 32 (sat32 v)).toInt = sat32 v :=
  toInt_ofInt_of_mem (sat32_bounds v).1 (sat32_bounds v).2

/-- `asr` is floor division: its defining pair of inequalities. -/
theorem asr_bounds (a : Int) (k : Nat) : asr a k * 2 ^ k ≤ a ∧ a < (asr a k + 1) * 2 ^ k := by
  have hpos : (0 : Int) < 2 ^ k := by positivity
  exact ⟨Int.ediv_mul_le a hpos.ne', Int.lt_ediv_add_one_mul_self a hpos⟩

@[simp] theorem asr_zero (k : Nat) : asr 0 k = 0 := by simp [asr]

@[simp] theorem mulq_zero_right (a : Int) : mulq a 0 = 0 := by simp [mulq]

end Sys2Proof.Machine
end

