-- ==== Sys2Proof/Laws/Encoding.lean ====
section
/-!
SUPPORT. The fields of a command word and of the words the encoder lays out (R70, R71).
-/

namespace Sys2Proof

theorem field_lt {n : Nat} (w : BitVec n) (hi lo : Nat) : field w hi lo < 2 ^ (hi - lo + 1) :=
  Nat.mod_lt _ (by positivity)

/-- A command word is its four fields (R70). -/
theorem toNat_eq_fields (w : CmdWord) :
    w.toNat = field w 15 12 * 4096 + field w 11 8 * 256 + field w 7 4 * 16 + field w 3 0 := by
  have := w.isLt
  simp only [field]; omega

theorem field_7_0 (w : CmdWord) : field w 7 0 = field w 7 4 * 16 + field w 3 0 := by
  simp only [field]; omega

theorem field_11_0 (w : CmdWord) :
    field w 11 0 = field w 11 8 * 256 + field w 7 4 * 16 + field w 3 0 := by
  simp only [field]; omega

section layout
variable {op slot note : Nat} (hop : op < 16) (hslot : slot < 16) (hnote : note < 16)
include hop hslot hnote

theorem layoutWord_toNat : (layoutWord op slot note).toNat = op * 4096 + slot * 256 + note := by
  simp only [layoutWord, BitVec.toNat_ofNat]; omega

theorem layoutWord_op : field (layoutWord op slot note) 15 12 = op := by
  simp only [field, layoutWord_toNat hop hslot hnote]; omega

theorem layoutWord_slot : field (layoutWord op slot note) 11 8 = slot := by
  simp only [field, layoutWord_toNat hop hslot hnote]; omega

theorem layoutWord_sub : field (layoutWord op slot note) 7 4 = 0 := by
  simp only [field, layoutWord_toNat hop hslot hnote]; omega

theorem layoutWord_note : field (layoutWord op slot note) 3 0 = note := by
  simp only [field, layoutWord_toNat hop hslot hnote]; omega

end layout

end Sys2Proof
end

