-- ==== Sys2Proof/Laws/PerInstr.lean ====
section
/-!
SUPPORT. Per command: the fields of its word (R70, R71, R73). The family `Fields` of LAWS.json.
-/

namespace Sys2Proof.Laws.Fields

/-- `OP` of the opcode map (R73). -/
def opOf : Instr → Nat
  | .nop => 0x0
  | .noteOn _ _ => 0x1
  | .noteOff _ => 0x2
  | .octUp => 0x3
  | .octDown => 0x4
  | .waveCycle => 0x5
  | .filtToggle => 0x6
  | .cutUp => 0x7
  | .cutDown => 0x8
  | .resUp => 0x9
  | .resDown => 0xA
  | .clrOvf => 0xB

/-- The `SLOT` operand, 0 where the command has none (R70). -/
def slotOf : Instr → Nat
  | .noteOn slot _ => slot.toNat
  | .noteOff slot => slot.toNat
  | .nop | .octUp | .octDown | .waveCycle | .filtToggle | .cutUp | .cutDown | .resUp | .resDown
  | .clrOvf => 0

/-- The `NOTE` operand, 0 where the command has none (R70). -/
def noteOf : Instr → Nat
  | .noteOn _ note => note.toNat
  | .noteOff _ | .nop | .octUp | .octDown | .waveCycle | .filtToggle | .cutUp | .cutDown | .resUp
  | .resDown | .clrOvf => 0

/-- The word of the command carries its `OP`, its operands and `SUB = 0` (R70, R71). -/
def Statement (i : Instr) : Prop :=
  field (encode i) 15 12 = opOf i ∧ field (encode i) 11 8 = slotOf i ∧
    field (encode i) 7 4 = 0 ∧ field (encode i) 3 0 = noteOf i

/-- The four fields of a laid-out word at once. -/
theorem of_layout {op slot note : Nat} (hop : op < 16) (hslot : slot < 16) (hnote : note < 16) :
    field (layoutWord op slot note) 15 12 = op ∧ field (layoutWord op slot note) 11 8 = slot ∧
      field (layoutWord op slot note) 7 4 = 0 ∧ field (layoutWord op slot note) 3 0 = note :=
  ⟨layoutWord_op hop hslot hnote, layoutWord_slot hop hslot hnote, layoutWord_sub hop hslot hnote,
    layoutWord_note hop hslot hnote⟩

theorem nop : Statement .nop := of_layout (by decide) (by decide) (by decide)
theorem noteOn (slot note : BitVec 4) : Statement (.noteOn slot note) :=
  of_layout (by decide) slot.isLt note.isLt
theorem noteOff (slot : BitVec 4) : Statement (.noteOff slot) :=
  of_layout (by decide) slot.isLt (by decide)
theorem octUp : Statement .octUp := of_layout (by decide) (by decide) (by decide)
theorem octDown : Statement .octDown := of_layout (by decide) (by decide) (by decide)
theorem waveCycle : Statement .waveCycle := of_layout (by decide) (by decide) (by decide)
theorem filtToggle : Statement .filtToggle := of_layout (by decide) (by decide) (by decide)
theorem cutUp : Statement .cutUp := of_layout (by decide) (by decide) (by decide)
theorem cutDown : Statement .cutDown := of_layout (by decide) (by decide) (by decide)
theorem resUp : Statement .resUp := of_layout (by decide) (by decide) (by decide)
theorem resDown : Statement .resDown := of_layout (by decide) (by decide) (by decide)
theorem clrOvf : Statement .clrOvf := of_layout (by decide) (by decide) (by decide)

end Sys2Proof.Laws.Fields
end

