-- ==== Sys2Proof/Laws/Decoding.lean ====
section
/-!
SUPPORT. What the decoder answers, once for all words (R74): a command exactly when the word carries the
command's fields, and RESERVED otherwise.
-/

namespace Sys2Proof

theorem ite_cases {p : Prop} [Decidable p] {a b c : Cmd} (h : (if p then a else b) = c) :
    (p ∧ a = c) ∨ b = c := by
  by_cases hp : p
  · exact .inl ⟨hp, by simpa [hp] using h⟩
  · exact .inr (by simpa [hp] using h)

/-- A word that decodes to a well-formed command carries its fields. -/
theorem fields_of_decode {w : CmdWord} {i : Instr} (h : decode w = .instr i) :
    i.wellFormed = true ∧ field w 15 12 = Laws.Fields.opOf i ∧ field w 11 8 = Laws.Fields.slotOf i ∧
      field w 7 4 = 0 ∧ field w 3 0 = Laws.Fields.noteOf i := by
  have hslot := field_lt w 11 8
  have hnote := field_lt w 3 0
  have h70 := field_7_0 w
  have h110 := field_11_0 w
  have zero (hz : field w 11 0 = 0) : field w 11 8 = 0 ∧ field w 7 4 = 0 ∧ field w 3 0 = 0 := by omega
  unfold decode at h
  obtain ⟨⟨hop, hsub, hle⟩, h⟩ | h := ite_cases h
  · cases h
    refine ⟨decide_eq_true ?_, hop, ?_, hsub, ?_⟩ <;>
      simp only [Laws.Fields.slotOf, Laws.Fields.noteOf, BitVec.toNat_ofNat] <;> omega
  obtain ⟨⟨hop, hz⟩, h⟩ | h := ite_cases h
  · cases h
    refine ⟨rfl, hop, ?_, by omega, ?_⟩ <;>
      simp only [Laws.Fields.slotOf, Laws.Fields.noteOf, BitVec.toNat_ofNat] <;> omega
  iterate 10
    obtain ⟨⟨hz, hop⟩, h⟩ | h := ite_cases h
    · cases h; obtain ⟨hs, hu, hn⟩ := zero hz; exact ⟨rfl, hop, hs, hu, hn⟩
  cases h

/-- A word that carries a well-formed command's fields decodes to it. -/
theorem decode_of_fields {w : CmdWord} {i : Instr} (hw : i.wellFormed = true)
    (hop : field w 15 12 = Laws.Fields.opOf i) (hslot : field w 11 8 = Laws.Fields.slotOf i)
    (hsub : field w 7 4 = 0) (hnote : field w 3 0 = Laws.Fields.noteOf i) : decode w = .instr i := by
  have h70 : field w 7 0 = field w 3 0 := by have := field_7_0 w; omega
  cases i with
  | noteOn slot note =>
    simp only [Laws.Fields.opOf, Laws.Fields.slotOf, Laws.Fields.noteOf] at hop hslot hnote
    have hle : note.toNat ≤ 11 := of_decide_eq_true hw
    unfold decode; dsimp only
    rw [hop, hslot, hsub, hnote, if_pos ⟨rfl, rfl, hle⟩, BitVec.ofNat_toNat, BitVec.ofNat_toNat,
      BitVec.setWidth_eq, BitVec.setWidth_eq]
  | noteOff slot =>
    simp only [Laws.Fields.opOf, Laws.Fields.slotOf, Laws.Fields.noteOf] at hop hslot hnote
    unfold decode; dsimp only
    rw [hop, hslot, h70, hnote, BitVec.ofNat_toNat, BitVec.setWidth_eq]
    rfl
  | _ =>
    simp only [Laws.Fields.opOf, Laws.Fields.slotOf, Laws.Fields.noteOf] at hop hslot hnote
    have h110 : field w 11 0 = 0 := by have := field_11_0 w; omega
    unfold decode; dsimp only
    rw [hop, h110]
    rfl

theorem ite_instr_or {p : Prop} [Decidable p] {i : Instr} {c : Cmd} {w : CmdWord}
    (h : (∃ j, c = .instr j) ∨ c = .reserved w) :
    (∃ j, (if p then .instr i else c) = .instr j) ∨ (if p then .instr i else c) = .reserved w := by
  by_cases hp : p
  · exact .inl ⟨i, if_pos hp⟩
  · rwa [if_neg hp]

/-- A word decodes to a command or is RESERVED, and RESERVED carries the word itself. -/
theorem decode_cases (w : CmdWord) : (∃ i, decode w = .instr i) ∨ decode w = .reserved w := by
  unfold decode
  iterate 12 refine ite_instr_or ?_
  exact .inr rfl

/-- The decoder's whole answer: command `i` exactly for the words that carry its fields (R73, R74). -/
theorem decode_eq_instr_iff (w : CmdWord) (i : Instr) : decode w = .instr i ↔
    i.wellFormed = true ∧ field w 15 12 = Laws.Fields.opOf i ∧ field w 11 8 = Laws.Fields.slotOf i ∧
      field w 7 4 = 0 ∧ field w 3 0 = Laws.Fields.noteOf i :=
  ⟨fields_of_decode, fun ⟨hw, hop, hslot, hsub, hnote⟩ => decode_of_fields hw hop hslot hsub hnote⟩

end Sys2Proof
end

