-- ==== Sys2Proof/Laws/Exec.lean ====
section
/-!
SUPPORT. What a command can do when applied: it always completes, it leaves the model's own fields and
the FIFO alone, and it keeps the invariants of R42.
-/

namespace Sys2Proof.Machine

theorem octUp_toNat (o : BitVec 3) :
    (BitVec.ofNat 3 (min (o.toNat + 1) MAX_OCTAVE)).toNat = min (o.toNat + 1) 6 := by
  rw [BitVec.toNat_ofNat]; unfold MAX_OCTAVE; omega

theorem octDown_toNat (o : BitVec 3) :
    (BitVec.ofNat 3 (max (o.toNat - 1) MIN_OCTAVE)).toNat = o.toNat - 1 := by
  rw [BitVec.toNat_ofNat]; unfold MIN_OCTAVE; omega

theorem cutUp_toNat (c : BitVec 16) :
    (BitVec.ofNat 16 (min (c.toNat + CUTOFF_STEP) CUTOFF_MAX)).toNat = min (c.toNat + 100) 5000 := by
  rw [BitVec.toNat_ofNat]; unfold CUTOFF_STEP CUTOFF_MAX; omega

theorem cutDown_toNat (c : BitVec 16) :
    (BitVec.ofNat 16 (max (c.toNat - CUTOFF_STEP) CUTOFF_MIN)).toNat = max (c.toNat - 100) 100 := by
  rw [BitVec.toNat_ofNat]; unfold CUTOFF_STEP CUTOFF_MIN; omega

theorem resUp_toNat (r : BitVec 4) :
    (BitVec.ofNat 4 (min (r.toNat + 1) RES_IDX_MAX)).toNat = min (r.toNat + 1) 15 := by
  rw [BitVec.toNat_ofNat]; unfold RES_IDX_MAX; omega

theorem resDown_toNat (r : BitVec 4) : (BitVec.ofNat 4 (max (r.toNat - 1) 0)).toNat = r.toNat - 1 := by
  rw [BitVec.toNat_ofNat]; omega

theorem cutoffLegal_up {c : Nat} (h : CutoffLegal c) : CutoffLegal (min (c + 100) 5000) := by
  unfold CutoffLegal CUTOFF_MIN CUTOFF_MAX CUTOFF_STEP at *; omega

theorem cutoffLegal_down {c : Nat} (h : CutoffLegal c) : CutoffLegal (max (c - 100) 100) := by
  unfold CutoffLegal CUTOFF_MIN CUTOFF_MAX CUTOFF_STEP at *; omega

/-- The fields no command writes. -/
structure CommandFrame (s t : State) : Prop where
  config : t.config = s.config
  fifo : t.fifo = s.fifo
  resetDone : t.resetDone = s.resetDone
  pending : t.pending = s.pending
  output : t.output = s.output

theorem CommandFrame.refl (s : State) : CommandFrame s s := ⟨rfl, rfl, rfl, rfl, rfl⟩

theorem CommandFrame.trans {s t u : State} (h : CommandFrame s t) (k : CommandFrame t u) : CommandFrame s u :=
  ⟨k.config.trans h.config, k.fifo.trans h.fifo, k.resetDone.trans h.resetDone,
    k.pending.trans h.pending, k.output.trans h.output⟩

theorem updateVoice_frame (s : State) (i : Nat) (f : Voice → Voice) : CommandFrame s (s.updateVoice i f) :=
  ⟨rfl, rfl, rfl, rfl, rfl⟩

theorem onSlot_frame (slot : BitVec 4) (f : Voice → Voice) (s : State) :
    CommandFrame s (onSlot slot f s) := by
  unfold onSlot; split
  · exact updateVoice_frame ..
  · exact .refl s

/-- Writing through a slot operand writes the voice array only. -/
theorem onSlot_eq_setVoices (slot : BitVec 4) (f : Voice → Voice) (s : State) :
    onSlot slot f s = s.setVoices (onSlot slot f s).voices := by
  unfold onSlot; split <;> rfl

/-- The named slot is rewritten, when it exists; every other slot keeps its value (R143, R144). -/
theorem onSlot_getElem? (slot : BitVec 4) (f : Voice → Voice) (s : State) (i : Nat) :
    (onSlot slot f s).voices[i]? =
      if slot.toNat = i ∧ i < s.config.numVoices then s.voices[i]?.map f else s.voices[i]? := by
  unfold onSlot slotPresent
  by_cases h : slot.toNat < s.config.numVoices
  · by_cases hi : slot.toNat = i
    · subst hi; simp [h, State.updateVoice]
    · simp [h, hi, State.updateVoice]
  · rw [if_neg (by simpa using h), if_neg (by omega)]

theorem onSlot_length (slot : BitVec 4) (f : Voice → Voice) (s : State) :
    (onSlot slot f s).voices.length = s.voices.length := by
  unfold onSlot; split
  · simp [State.updateVoice]
  · rfl

/-- Every command completes: no clamp, absent slot or ill-formed operand stops one (R162, R200). -/
theorem exec_completes (i : Instr) (s : State) : ∃ t, exec i s = .next t := by
  cases i with
  | noteOn slot note => unfold exec execNoteOn; dsimp only; split <;> exact ⟨_, rfl⟩
  | _ => exact ⟨_, rfl⟩

theorem exec_frame {i : Instr} {s t : State} (h : exec i s = .next t) : CommandFrame s t := by
  cases i with
  | noteOn slot note =>
    unfold exec execNoteOn at h; dsimp only at h
    split at h <;> cases h
    · exact onSlot_frame ..
    · exact .refl s
  | noteOff slot => cases h; exact onSlot_frame ..
  | nop => cases h; exact .refl s
  | _ => cases h; exact ⟨rfl, rfl, rfl, rfl, rfl⟩

theorem onSlot_voices_legal {slot : BitVec 4} {f : Voice → Voice} {s : State}
    (hf : ∀ v ∈ s.voices, v.Legal → (f v).Legal) (h : ∀ v ∈ s.voices, v.Legal) :
    ∀ v ∈ (onSlot slot f s).voices, v.Legal := by
  intro v hv
  obtain ⟨i, hi⟩ := List.mem_iff_getElem?.1 hv
  rw [onSlot_getElem?] at hi
  split at hi
  · obtain ⟨u, hu, rfl⟩ := Option.map_eq_some_iff.1 hi
    have := List.mem_of_getElem? hu
    exact hf u this (h u this)
  · exact h v (List.mem_of_getElem? hi)

/-- A command keeps the invariants of R42. -/
theorem exec_keeps_legal {i : Instr} {s t : State} (hs : s.Legal) (h : exec i s = .next t) : t.Legal := by
  obtain ⟨hc, ho, hcut, hlen, hv, hf⟩ := hs
  have frame := exec_frame h
  have hc' : t.config.Legal := frame.config ▸ hc
  have hf' : t.fifoCount ≤ t.config.cmdFifoDepth := by
    unfold State.fifoCount; rw [frame.fifo, frame.config]; exact hf
  cases i with
  | noteOn slot note =>
    unfold exec execNoteOn at h; dsimp only at h
    split at h
    · rename_i hn
      cases h
      rw [onSlot_eq_setVoices] at hc' hf' ⊢
      refine ⟨hc', ho, hcut, ?_, onSlot_voices_legal (fun _ _ _ _ => ⟨?_, ho⟩) hv, hf'⟩
      · simpa [onSlot_length] using hlen
      · exact of_decide_eq_true hn
    · cases h; exact ⟨hc, ho, hcut, hlen, hv, hf⟩
  | noteOff slot =>
    cases h
    rw [onSlot_eq_setVoices] at hc' hf' ⊢
    refine ⟨hc', ho, hcut, ?_, onSlot_voices_legal (fun _ _ _ ha => ?_) hv, hf'⟩
    · simpa [onSlot_length] using hlen
    · simp at ha
  | octUp => cases h; exact ⟨hc', by rw [State.setOctave_octave, octUp_toNat]; exact Nat.min_le_right .., hcut, hlen, hv, hf'⟩
  | octDown =>
    cases h
    refine ⟨hc', ?_, hcut, hlen, hv, hf'⟩
    rw [State.setOctave_octave, octDown_toNat]
    exact le_trans (Nat.sub_le ..) ho
  | cutUp =>
    cases h
    refine ⟨hc', ho, ?_, hlen, hv, hf'⟩
    rw [State.setCutoff_cutoff, cutUp_toNat]
    exact cutoffLegal_up hcut
  | cutDown =>
    cases h
    refine ⟨hc', ho, ?_, hlen, hv, hf'⟩
    rw [State.setCutoff_cutoff, cutDown_toNat]
    exact cutoffLegal_down hcut
  | nop | waveCycle | filtToggle | resUp | resDown | clrOvf =>
    cases h; exact ⟨hc', ho, hcut, hlen, hv, hf'⟩

end Sys2Proof.Machine
end

