-- ==== Sys2Proof/Laws/Ports.lean ====
section
/-!
SUPPORT. What applying the words of the FIFO, producing a sample and each port operation can do.
-/

namespace Sys2Proof.Machine

/-- A RESERVED word changes nothing when applied (R160). -/
theorem applyWord_of_reserved {w w' : CmdWord} (h : decode w = .reserved w') (s : State) :
    applyWord w s = .next s := by
  simp only [applyWord, h, execReserved]

/-- Any other word runs its command (R161). -/
theorem applyWord_of_instr {w : CmdWord} {i : Instr} (h : decode w = .instr i) (s : State) :
    applyWord w s = exec i s := by
  simp only [applyWord, h]

/-- What applying a word can do: run the command it decodes to, or nothing. -/
theorem applyWord_cases {w : CmdWord} {s t : State} (h : applyWord w s = .next t) :
    (∃ i, decode w = .instr i ∧ exec i s = .next t) ∨ ((∃ w', decode w = .reserved w') ∧ t = s) := by
  cases hd : decode w with
  | instr i => exact .inl ⟨i, rfl, by rwa [applyWord_of_instr hd] at h⟩
  | reserved w' =>
    rw [applyWord_of_reserved hd] at h
    cases h; exact .inr ⟨⟨w', rfl⟩, rfl⟩

theorem applyWord_completes (w : CmdWord) (s : State) : ∃ t, applyWord w s = .next t := by
  cases hd : decode w with
  | instr i => rw [applyWord_of_instr hd]; exact exec_completes i s
  | reserved w' => exact ⟨s, applyWord_of_reserved hd s⟩

theorem applyWord_frame {w : CmdWord} {s t : State} (h : applyWord w s = .next t) : CommandFrame s t := by
  obtain ⟨i, -, hi⟩ | ⟨-, rfl⟩ := applyWord_cases h
  · exact exec_frame hi
  · exact .refl _

theorem applyWord_keeps_legal {w : CmdWord} {s t : State} (hs : s.Legal) (h : applyWord w s = .next t) :
    t.Legal := by
  obtain ⟨i, -, hi⟩ | ⟨-, rfl⟩ := applyWord_cases h
  · exact exec_keeps_legal hs hi
  · exact hs

/-- Applying the FIFO one word at a time, oldest first (R161, R181). -/
theorem drainWords_cons {w : CmdWord} {ws : List CmdWord} {s u : State}
    (h : applyWord w (s.setFifo ws) = .next u) : drainWords (w :: ws) s = drainWords ws u := by
  simp only [drainWords, h]

theorem drainWords_completes : ∀ (ws : List CmdWord) (s : State), ∃ t, drainWords ws s = .next t
  | [], s => ⟨s, rfl⟩
  | w :: ws, s => by
    obtain ⟨u, hu⟩ := applyWord_completes w (s.setFifo ws)
    rw [drainWords_cons hu]
    exact drainWords_completes ws u

/-- A property every applied word keeps holds after the whole FIFO is applied. -/
theorem drainWords_induction {P : State → Prop} (hfifo : ∀ s ws, P s → P (s.setFifo ws))
    (hword : ∀ w s t, P s → applyWord w s = .next t → P t) :
    ∀ (ws : List CmdWord) (s t : State), P s → drainWords ws s = .next t → P t
  | [], s, t, hs, h => by cases h; exact hs
  | w :: ws, s, t, hs, h => by
    obtain ⟨u, hu⟩ := applyWord_completes w (s.setFifo ws)
    rw [drainWords_cons hu] at h
    exact drainWords_induction hfifo hword ws u t (hword w _ u (hfifo s ws hs) hu) h

/-- Applying the FIFO empties it and leaves the parameters and the model's own fields alone. -/
theorem drainWords_frame : ∀ (ws : List CmdWord) (s t : State), s.fifo = ws → drainWords ws s = .next t →
    CommandFrame (s.setFifo []) t
  | [], s, t, hf, h => by cases h; exact ⟨rfl, hf, rfl, rfl, rfl⟩
  | w :: ws, s, t, _, h => by
    obtain ⟨u, hu⟩ := applyWord_completes w (s.setFifo ws)
    rw [drainWords_cons hu] at h
    have fu := applyWord_frame hu
    have ft := drainWords_frame ws u t fu.fifo h
    exact ⟨ft.config.trans fu.config, ft.fifo, ft.resetDone.trans fu.resetDone,
      ft.pending.trans fu.pending, ft.output.trans fu.output⟩

/-- Applying the FIFO keeps the invariants of R42. -/
theorem drainWords_keeps_legal : ∀ (ws : List CmdWord) (s t : State), s.fifo = ws → s.Legal →
    drainWords ws s = .next t → t.Legal
  | [], s, t, _, hs, h => by cases h; exact hs
  | w :: ws, s, t, hf, hs, h => by
    obtain ⟨u, hu⟩ := applyWord_completes w (s.setFifo ws)
    rw [drainWords_cons hu] at h
    obtain ⟨hc, ho, hcut, hlen, hv, hcount⟩ := hs
    have hshort : (s.setFifo ws).fifoCount ≤ (s.setFifo ws).config.cmdFifoDepth := by
      unfold State.fifoCount at hcount ⊢
      rw [hf] at hcount
      exact le_trans (Nat.le_succ ws.length) hcount
    have hs' : (s.setFifo ws).Legal := ⟨hc, ho, hcut, hlen, hv, hshort⟩
    have hu' : u.Legal := applyWord_keeps_legal hs' hu
    exact drainWords_keeps_legal ws u t (applyWord_frame hu).fifo hu' h

/-- Producing a sample writes the voice array and the sample port only. -/
theorem produceSample_eq (s : State) :
    produceSample s = (s.setVoices (s.voices.map (laneVoice (laneInputs s)))).setOutput
      (.sample (BitVec.ofInt 32 (mixSample (laneInputs s) s.voices))) := rfl

theorem laneVoice_fields (c : LaneInputs) (v : Voice) :
    (laneVoice c v).active = v.active ∧ (laneVoice c v).note = v.note ∧ (laneVoice c v).voct = v.voct := by
  unfold laneVoice filteredVoice
  split <;> [split; skip] <;> exact ⟨rfl, rfl, rfl⟩

theorem laneVoice_legal {c : LaneInputs} {v : Voice} (h : v.Legal) : (laneVoice c v).Legal := by
  obtain ⟨ha, hn, hv⟩ := laneVoice_fields c v
  unfold Voice.Legal
  rw [ha, hn, hv]
  exact h

/-- The sample on the port is the clamped sum: storing it in 32 bits loses nothing (R185). -/
theorem mixSample_toInt (c : LaneInputs) (vs : List Voice) :
    (BitVec.ofInt 32 (mixSample c vs)).toInt = mixSample c vs := by
  obtain ⟨h0, h1⟩ := clamp_bounds (lo := -ONE) (hi := ONE) (by decide) (mixSum c vs)
  exact toInt_ofInt_of_mem (le_trans (by decide) h0) (le_trans h1 (by decide))

theorem produceSample_keeps_legal {s : State} (h : s.Legal) : (produceSample s).Legal := by
  obtain ⟨hc, ho, hcut, hlen, hv, hf⟩ := h
  refine ⟨hc, ho, hcut, ?_, ?_, hf⟩
  · simpa [produceSample_eq] using hlen
  · intro v hmem
    rw [produceSample_eq, State.setOutput_voices, State.setVoices_voices, List.mem_map] at hmem
    obtain ⟨u, hu, rfl⟩ := hmem
    exact laneVoice_legal (hv u hu)

/-- A TICK is the words of the FIFO applied and then one sample produced (R181). -/
theorem tick_of_drain {s u : State} (h : drainWords s.fifo s = .next u) : tick s = .next (produceSample u) := by
  simp only [tick, h]

/-- What a TICK can do: it completes, by applying every word and producing a sample. -/
theorem tick_completes (s : State) : ∃ u, drainWords s.fifo s = .next u ∧ tick s = .next (produceSample u) := by
  obtain ⟨u, hu⟩ := drainWords_completes s.fifo s
  exact ⟨u, hu, tick_of_drain hu⟩

/-- A TICK with one word at the head of the FIFO is the TICK of the state that word leaves (R161). -/
theorem tick_cons {s u : State} {w : CmdWord} {ws : List CmdWord} (hf : s.fifo = w :: ws)
    (h : applyWord w (s.setFifo ws) = .next u) : tick s = tick u := by
  have hu : u.fifo = ws := (applyWord_frame h).fifo
  simp only [tick, hf, drainWords_cons h, hu]

/-- A CMD_WRITE with room in the FIFO appends the word (R180). -/
theorem cmdWrite_of_room {s : State} (h : s.fifoCount < s.config.cmdFifoDepth) (w : CmdWord) :
    cmdWrite w s = (s.setFifo (s.fifo ++ [w])).setOutput .nothing := by
  simp only [cmdWrite, if_pos h, State.fifoPush]

/-- A CMD_WRITE to a full FIFO drops the word and sets `OVF` (R180). -/
theorem cmdWrite_of_full {s : State} (h : s.config.cmdFifoDepth ≤ s.fifoCount) (w : CmdWord) :
    cmdWrite w s = (s.setOvf true).setOutput .nothing := by
  simp only [cmdWrite, if_neg (Nat.not_lt.2 h), raiseOvf]

/-- The values of RESET meet the invariants of R42, for legal parameters (R220). -/
theorem resetValues_legal {c : Config} (h : c.Legal) : (State.resetValues c).Legal := by
  have hoct : (BitVec.ofNat 3 OCTAVE_RESET).toNat ≤ MAX_OCTAVE := by decide
  have hcut : CutoffLegal (BitVec.ofNat 16 CUTOFF_RESET).toNat := by decide
  refine ⟨h, hoct, hcut, List.length_replicate, fun v hv => ?_, Nat.zero_le _⟩
  rw [List.eq_of_mem_replicate hv]
  decide

/-- What one request does to a block in operation: it completes, and keeps the invariants of R42. -/
theorem performLegal_completes {s : State} (hs : s.Ready) (op : PortOp) :
    ∃ t, performLegal op s = .next t ∧ t.Ready ∧ t.pending = s.pending ∧ t.config = s.config := by
  obtain ⟨hd, hc, ho, hcut, hlen, hv, hf⟩ := hs
  cases op with
  | cmdWrite w =>
    refine ⟨cmdWrite w s, rfl, ?_⟩
    rcases Nat.lt_or_ge s.fifoCount s.config.cmdFifoDepth with hroom | hfull
    · rw [cmdWrite_of_room hroom]
      refine ⟨⟨hd, hc, ho, hcut, hlen, hv, ?_⟩, rfl, rfl⟩
      simpa [State.fifoCount] using hroom
    · rw [cmdWrite_of_full hfull]
      exact ⟨⟨hd, hc, ho, hcut, hlen, hv, hf⟩, rfl, rfl⟩
  | statusRead => exact ⟨_, rfl, ⟨hd, hc, ho, hcut, hlen, hv, hf⟩, rfl, rfl⟩
  | reset => exact ⟨_, rfl, ⟨rfl, resetValues_legal hc⟩, rfl, rfl⟩
  | tick =>
    obtain ⟨u, hu, ht⟩ := tick_completes s
    have frame := drainWords_frame _ _ _ rfl hu
    have hul := drainWords_keeps_legal _ _ _ rfl ⟨hc, ho, hcut, hlen, hv, hf⟩ hu
    exact ⟨_, ht, ⟨frame.resetDone.trans hd, produceSample_keeps_legal hul⟩, frame.pending, frame.config⟩

/-- The step of a block in operation is its oldest request (R58). -/
theorem step_of_ready {s : State} {op : PortOp} {rest : List PortOp} (hs : s.Ready)
    (hp : s.pending = op :: rest) : step s = performLegal op (s.setPending rest) := by
  have hl : (s.setPending rest).Legal := hs.2
  simp only [step, takeStep, hp, perform, State.setPending_resetDone, hs.1, if_true, if_pos hl]

/-- With no request the block keeps all its state (R212). -/
theorem step_of_idle {s : State} (hp : s.pending = []) : step s = .next s := by
  simp only [step, takeStep, hp]

end Sys2Proof.Machine
end

