-- ==== Sys2Proof/Laws/Rom.lean ====
section
/-!
SUPPORT. What the two ROMs hold: the range of `SIN_ROM` and of the interpolated sine (R104), and that
`root12` is the integer twelfth root the tuning words of R93 are rounded with.
-/

namespace Sys2Proof.Machine

theorem sinRomBlocks_range :
    ∀ b ∈ sinRomBlocks, ∀ r ∈ b, ∀ v ∈ r, -ONE ≤ v ∧ v ≤ ONE := by decide +kernel

theorem getD_mem_or_default {α : Type} (l : List α) (i : Nat) (d : α) : l.getD i d ∈ l ∨ l.getD i d = d := by
  rcases Nat.lt_or_ge i l.length with h | h
  · exact .inl (by simp [List.getD_eq_getElem?_getD, h])
  · exact .inr (by simp [List.getD_eq_getElem?_getD, h])

/-- Every word of `SIN_ROM` lies in `[-ONE, ONE]` (R102). -/
theorem sinRom_range (i : Nat) : -ONE ≤ sinRom i ∧ sinRom i ≤ ONE := by
  unfold sinRom
  rcases getD_mem_or_default sinRomBlocks (i / 64) [] with hb | hb
  · rcases getD_mem_or_default (sinRomBlocks.getD (i / 64) []) (i / 8 % 8) [] with hr | hr
    · rcases getD_mem_or_default ((sinRomBlocks.getD (i / 64) []).getD (i / 8 % 8) []) (i % 8) 0 with hv | hv
      · exact sinRomBlocks_range _ hb _ hr _ hv
      · rw [hv]; decide
    · rw [hr]; simp
  · rw [hb]; simp

/-- Interpolation stays between its two ends (R104). -/
theorem interpolate_between (a b frac : Int) (h0 : 0 ≤ frac) (h1 : frac < 4194304) :
    min a b ≤ a + asr ((b - a) * frac) 22 ∧ a + asr ((b - a) * frac) 22 ≤ max a b := by
  obtain ⟨hlo, hhi⟩ := asr_bounds ((b - a) * frac) 22
  generalize asr ((b - a) * frac) 22 = q at hlo hhi
  norm_num at hlo hhi
  rcases le_total a b with h | h
  · rw [min_eq_left h, max_eq_right h]
    constructor <;> nlinarith
  · rw [min_eq_right h, max_eq_left h]
    constructor <;> nlinarith

/-- The interpolated sine lies between the two ROM words it is taken from (R104). -/
theorem sinU_between (p : Word32) :
    min (sinRom (field p 31 22)) (sinRom ((field p 31 22 + 1) % 1024)) ≤ sinU p ∧
      sinU p ≤ max (sinRom (field p 31 22)) (sinRom ((field p 31 22 + 1) % 1024)) :=
  interpolate_between _ _ _ (by positivity) (by exact_mod_cast field_lt p 21 0)

/-- One bit of the root at a time: the answer's twelfth power is at most `q`, the next one's is above. -/
theorem root12From_spec (q : Nat) : ∀ k r : Nat, r ^ 12 ≤ q → q < (r + 2 ^ k) ^ 12 →
    root12From q k r ^ 12 ≤ q ∧ q < (root12From q k r + 1) ^ 12
  | 0, r, hlo, hhi => ⟨hlo, by simpa [root12From] using hhi⟩
  | k + 1, r, hlo, hhi => by
    unfold root12From
    split
    · exact root12From_spec q k _ ‹_› (by rwa [Nat.add_assoc, ← Nat.two_mul, ← Nat.pow_succ'])
    · exact root12From_spec q k r hlo (by omega)

/-- `root12 q` is the integer twelfth root of `q`. -/
theorem root12_spec {q : Nat} (h : q < (2 ^ 36) ^ 12) : root12 q ^ 12 ≤ q ∧ q < (root12 q + 1) ^ 12 :=
  root12From_spec q 36 0 (by simp) (by simpa using h)

/-- The words listed in R94 are the words of R93 at the default `FS`. -/
theorem freqRomListed_eq_tuningWord :
    ∀ o ∈ List.range 7, ∀ n ∈ List.range 12, (freqRomListed.getD o []).getD n 0 = tuningWord 44100 o n := by
  decide +kernel

theorem freqRom_eq_tuningWord (fs : Nat) {o n : Nat} (ho : o ≤ 6) (hn : n ≤ 11) :
    freqRom fs o n = tuningWord fs o n := by
  unfold freqRom
  split
  · subst fs
    exact freqRomListed_eq_tuningWord o (List.mem_range.2 (by omega)) n (List.mem_range.2 (by omega))
  · rfl

end Sys2Proof.Machine
end

