-- ==== Sys2Proof/Laws/Mixer.lean ====
section
/-!
SUPPORT. The lanes and the mixer (R181 to R186), the range of the oscillator (R109), the filter's results
(R120), and runs of the machine.
-/

namespace Sys2Proof.Machine

/-- The interpolated sine stays in `[-ONE, ONE]` (R109). -/
theorem sinU_range (p : Word32) : -ONE ≤ sinU p ∧ sinU p ≤ ONE := by
  obtain ⟨hlo, hhi⟩ := sinU_between p
  have h1 := sinRom_range (field p 31 22)
  have h2 := sinRom_range ((field p 31 22 + 1) % 1024)
  exact ⟨le_trans (le_min h1.1 h2.1) hlo, le_trans hhi (max_le h1.2 h2.2)⟩

/-- The filter's output and new registers are 32-bit values, and its output is its new `L` (R120). -/
theorem svf_bounds (x l b : Int) (c : Coefficients) :
    (svf x l b c).y = (svf x l b c).l ∧
      (-2147483648 ≤ (svf x l b c).l ∧ (svf x l b c).l ≤ 2147483647) ∧
      (-2147483648 ≤ (svf x l b c).b ∧ (svf x l b c).b ≤ 2147483647) :=
  ⟨rfl, sat32_bounds _, sat32_bounds _⟩

theorem laneSample_of_idle {v : Voice} (h : v.active = false) (c : LaneInputs) : laneSample c v = 0 := by
  simp only [laneSample, h, Bool.false_eq_true, if_false]

theorem laneVoice_of_idle {v : Voice} (h : v.active = false) (c : LaneInputs) : laneVoice c v = v := by
  simp only [laneVoice, h, Bool.false_eq_true, if_false]

/-- The sum is over the sounding slots: an Idle slot adds 0 (R182). -/
theorem mixSum_eq_sounding (c : LaneInputs) (vs : List Voice) :
    mixSum c vs = ((vs.filter fun v => v.active).map (laneSample c)).sum := by
  unfold mixSum
  induction vs with
  | nil => rfl
  | cons v vs ih =>
    cases ha : v.active with
    | false => rw [List.filter_cons_of_neg (by simp [ha]), List.map_cons, List.sum_cons, ih,
        laneSample_of_idle ha, zero_add]
    | true => rw [List.filter_cons_of_pos ha, List.map_cons, List.sum_cons, ih, List.map_cons, List.sum_cons]

/-- With no sounding voice the sum is 0 (R186). -/
theorem mixSum_of_silent {vs : List Voice} (h : ∀ v ∈ vs, v.active = false) (c : LaneInputs) :
    mixSum c vs = 0 := by
  unfold mixSum
  rw [List.map_congr_left fun v hv => laneSample_of_idle (h v hv) c]
  simp

/-- With no sounding voice the sample is 0 and no slot is written (R186). -/
theorem produceSample_of_silent {s : State} (h : s.Silent) : produceSample s = s.setOutput (.sample 0) := by
  have hm : mixSample (laneInputs s) s.voices = 0 := by
    unfold mixSample; rw [mixSum_of_silent h]; rfl
  have hv : s.voices.map (laneVoice (laneInputs s)) = s.voices := by
    rw [List.map_congr_left fun v hv => laneVoice_of_idle (h v hv) (laneInputs s), List.map_id']
  rw [produceSample_eq, hm, hv]
  rfl

/-- The slots after a TICK, one by one (R183). -/
theorem produceSample_getElem? (s : State) (i : Nat) :
    (produceSample s).voices[i]? = s.voices[i]?.map (laneVoice (laneInputs s)) := by
  simp [produceSample_eq]

/-- One step more of a run. -/
theorem run_succ {s t : State} (h : step s = .next t) (k : Nat) :
    Host.Core.run core (k + 1) s = Host.Core.run core k t := by
  have h' : core.step s = .next t := h
  simp only [Host.Core.run, h']

theorem run_one {s t : State} (h : step s = .next t) : Host.Core.run core 1 s = .next t := run_succ h 0

/-- A request of a block in operation: what its step does, and that the block stays in operation. -/
theorem step_completes {s : State} {op : PortOp} {rest : List PortOp} (hs : s.Ready)
    (hp : s.pending = op :: rest) :
    ∃ t, performLegal op (s.setPending rest) = .next t ∧ step s = .next t ∧ t.Ready ∧ t.pending = rest ∧
      t.config = s.config := by
  have hs' : (s.setPending rest).Ready := hs
  obtain ⟨t, hperf, ready, pending, config⟩ := performLegal_completes hs' op
  exact ⟨t, hperf, (step_of_ready hs hp).trans hperf, ready, pending, config⟩

end Sys2Proof.Machine
end

