-- ==== Sys2Proof/Laws/Passive.lean ====
section
/-!
SUPPORT. Commands do not look at the FIFO, the requests, the last result or the labels among the parameters:
changing such a field first or afterwards is the same.
-/

namespace Sys2Proof.Machine

/-- A change of state that touches nothing a command reads or writes. -/
structure Passive (g : State → State) : Prop where
  octave : ∀ s, (g s).octave = s.octave
  wave : ∀ s, (g s).wave = s.wave
  filtEn : ∀ s, (g s).filtEn = s.filtEn
  cutoff : ∀ s, (g s).cutoff = s.cutoff
  resIdx : ∀ s, (g s).resIdx = s.resIdx
  voices : ∀ s, (g s).voices = s.voices
  numVoices : ∀ s, (g s).config.numVoices = s.config.numVoices
  setOctave : ∀ s v, g (s.setOctave v) = (g s).setOctave v
  setWave : ∀ s v, g (s.setWave v) = (g s).setWave v
  setFiltEn : ∀ s v, g (s.setFiltEn v) = (g s).setFiltEn v
  setCutoff : ∀ s v, g (s.setCutoff v) = (g s).setCutoff v
  setResIdx : ∀ s v, g (s.setResIdx v) = (g s).setResIdx v
  setVoices : ∀ s v, g (s.setVoices v) = (g s).setVoices v
  setOvf : ∀ s v, g (s.setOvf v) = (g s).setOvf v

theorem passive_setFifo (ws : List CmdWord) : Passive fun s => s.setFifo ws := by
  constructor <;> intros <;> rfl

theorem passive_setPending (ps : List PortOp) : Passive fun s => s.setPending ps := by
  constructor <;> intros <;> rfl

theorem passive_setOutput (out : PortOutput) : Passive fun s => s.setOutput out := by
  constructor <;> intros <;> rfl

theorem passive_relabel (o : Option ByteOrder) (d : Duration) : Passive (State.relabel o d) := by
  constructor <;> intros <;> rfl

theorem onSlot_passive {g : State → State} (hg : Passive g) (slot : BitVec 4) (f : Voice → Voice) (s : State) :
    onSlot slot f (g s) = g (onSlot slot f s) := by
  have hslot : slotPresent (g s) slot = slotPresent s slot := by unfold slotPresent; rw [hg.numVoices]
  unfold onSlot
  rw [hslot]
  split
  · unfold State.updateVoice; rw [hg.voices, hg.setVoices]
  · rfl

/-- A command commutes with a passive change. -/
theorem exec_passive {g : State → State} (hg : Passive g) {i : Instr} {s t : State} (h : exec i s = .next t) :
    exec i (g s) = .next (g t) := by
  cases i with
  | noteOn slot note =>
    unfold exec execNoteOn at h ⊢
    dsimp only at h ⊢
    split at h <;> cases h
    · rw [if_pos ‹_›, hg.octave, onSlot_passive hg]
    · rw [if_neg ‹_›]
  | noteOff slot => cases h; unfold exec execNoteOff; dsimp only; rw [onSlot_passive hg]
  | nop => cases h; rfl
  | octUp => cases h; unfold exec execOctUp; dsimp only; rw [hg.setOctave, hg.octave]
  | octDown => cases h; unfold exec execOctDown; dsimp only; rw [hg.setOctave, hg.octave]
  | waveCycle => cases h; unfold exec execWaveCycle; dsimp only; rw [hg.setWave, hg.wave]
  | filtToggle => cases h; unfold exec execFiltToggle flipFiltEn; dsimp only; rw [hg.setFiltEn, hg.filtEn]
  | cutUp => cases h; unfold exec execCutUp; dsimp only; rw [hg.setCutoff, hg.cutoff]
  | cutDown => cases h; unfold exec execCutDown; dsimp only; rw [hg.setCutoff, hg.cutoff]
  | resUp => cases h; unfold exec execResUp; dsimp only; rw [hg.setResIdx, hg.resIdx]
  | resDown => cases h; unfold exec execResDown; dsimp only; rw [hg.setResIdx, hg.resIdx]
  | clrOvf => cases h; unfold exec execClrOvf lowerOvf; dsimp only; rw [hg.setOvf]

theorem applyWord_passive {g : State → State} (hg : Passive g) {w : CmdWord} {s t : State}
    (h : applyWord w s = .next t) : applyWord w (g s) = .next (g t) := by
  obtain ⟨i, hi, hx⟩ | ⟨⟨w', hw⟩, rfl⟩ := applyWord_cases h
  · rw [applyWord_of_instr hi]; exact exec_passive hg hx
  · exact applyWord_of_reserved hw _

/-- Applying the FIFO commutes with a passive change that leaves the FIFO alone. -/
theorem drainWords_passive {g : State → State} (hg : Passive g)
    (hfifo : ∀ s ws, g (s.setFifo ws) = (g s).setFifo ws) :
    ∀ (ws : List CmdWord) (s t : State), drainWords ws s = .next t → drainWords ws (g s) = .next (g t)
  | [], s, t, h => by cases h; rfl
  | w :: ws, s, t, h => by
    obtain ⟨u, hu⟩ := applyWord_completes w (s.setFifo ws)
    have hu' : applyWord w ((g s).setFifo ws) = .next (g u) := hfifo s ws ▸ applyWord_passive hg hu
    rw [drainWords_cons hu] at h
    rw [drainWords_cons hu']
    exact drainWords_passive hg hfifo ws u t h

/-- What the FIFO holds while its words are applied has no effect on the other fields. -/
theorem drainWords_setFifo (ws : List CmdWord) (s t : State) (x : List CmdWord)
    (h : drainWords ws s = .next t) : ∃ y, drainWords ws (s.setFifo x) = .next (t.setFifo y) := by
  cases ws with
  | nil => cases h; exact ⟨x, rfl⟩
  | cons w ws => exact ⟨t.fifo, h⟩

/-- Words behind others are applied after them (R59, R161). -/
theorem drainWords_append : ∀ (ws vs : List CmdWord) (s u : State), drainWords ws s = .next u →
    ∃ y, drainWords (ws ++ vs) s = drainWords vs (u.setFifo y)
  | [], vs, s, u, h => by cases h; exact ⟨s.fifo, rfl⟩
  | w :: ws, vs, s, u, h => by
    obtain ⟨a, ha⟩ := applyWord_completes w (s.setFifo ws)
    rw [drainWords_cons ha] at h
    have ha' : applyWord w (s.setFifo (ws ++ vs)) = .next (a.setFifo (ws ++ vs)) := by
      show applyWord w ((fun s : State => s.setFifo (ws ++ vs)) (s.setFifo ws)) = _
      exact applyWord_passive (passive_setFifo (ws ++ vs)) ha
    obtain ⟨y, hy⟩ := drainWords_setFifo ws a u (ws ++ vs) h
    obtain ⟨z, hz⟩ := drainWords_append ws vs _ _ hy
    exact ⟨z, by rw [List.cons_append, drainWords_cons ha', hz]; rfl⟩

/-- Every port operation commutes with a change of the requests behind it. -/
theorem performLegal_setPending {op : PortOp} {s t : State} (ps : List PortOp)
    (h : performLegal op s = .next t) : performLegal op (s.setPending ps) = .next (t.setPending ps) := by
  cases op with
  | cmdWrite w =>
    cases h
    unfold performLegal
    dsimp only
    rcases Nat.lt_or_ge s.fifoCount s.config.cmdFifoDepth with hroom | hfull
    · have hroom' : (s.setPending ps).fifoCount < (s.setPending ps).config.cmdFifoDepth := hroom
      rw [cmdWrite_of_room hroom, cmdWrite_of_room hroom']; rfl
    · have hfull' : (s.setPending ps).config.cmdFifoDepth ≤ (s.setPending ps).fifoCount := hfull
      rw [cmdWrite_of_full hfull, cmdWrite_of_full hfull']; rfl
  | statusRead => cases h; rfl
  | reset => cases h; rfl
  | tick =>
    obtain ⟨u, hu, ht⟩ := tick_completes s
    have hn : tick s = .next t := h
    rw [ht] at hn
    cases hn
    exact tick_of_drain (drainWords_passive (passive_setPending ps) (fun _ _ => rfl) _ _ _ hu)

end Sys2Proof.Machine
end

