-- ==== Sys2Proof/Tests/Slice0.lean ====
section
/-!
SUPPORT. The model's own tests: decoding of words written out from R70 and R73, one or two small steps per
command with results from the spec, the well-formedness check, and for each statement with hypotheses a
concrete state that meets them (named after the statement).
-/

open Sys2Proof Sys2Proof.Machine

namespace Sys2Proof.Tests

/-- What an outcome's next state shows through `f`; `none` for a fault or a refusal. -/
def after {α : Type} (o : Host.Outcome State Fault Refusal) (f : State → α) : Option α :=
  match o with
  | .next t => some (f t)
  | .fault _ => none
  | .refused _ => none

/-- The reason of a refusal; `none` for another outcome. -/
def refusal (o : Host.Outcome State Fault Refusal) : Option Refusal :=
  match o with
  | .next _ => none
  | .fault _ => none
  | .refused r => some r

/-- The block after RESET with requests waiting. -/
def asked (ops : List PortOp) : State := State.reset.setPending ops

/-- The block after RESET with words in the FIFO and a TICK waiting. -/
def queued (ws : List CmdWord) : State := (asked [.tick]).setFifo ws

/-- The block with A4 sounding in slot 0. -/
def playing (ops : List PortOp) : State :=
  (asked ops).setVoices (startedVoice 4 9 :: List.replicate 15 Voice.reset)

/-- The block with 8 voice slots after RESET. -/
def eight : State := State.resetValues { Config.default with numVoices := 8 }

/-- A block before its first RESET, with a value no RESET leaves. -/
def poweredOn (ops : List PortOp) : State :=
  { (asked ops).setOctave 7 with resetDone := false }

/-! ### Well-formedness: an ill-formed term the check refuses -/

theorem test_wellFormed_refuses_note_12 : (Instr.noteOn 0 12).wellFormed = false := by decide
theorem test_wellFormed_refuses_note_15 : (Instr.noteOn 15 15).wellFormed = false := by decide
theorem test_wellFormed_takes_note_11 : (Instr.noteOn 15 11).wellFormed = true := by decide

/-! ### Decoding (R70, R73; 95_test_vectors.md 2.1) -/

theorem test_decode_nop : decode 0b0000_0000_0000_0000 = .instr .nop := by decide +kernel
theorem test_decode_noteOn : decode 0b0001_1111_0000_1011 = .instr (.noteOn 15 11) := by decide +kernel
theorem test_decode_noteOff : decode 0b0010_0101_0000_0000 = .instr (.noteOff 5) := by decide +kernel
theorem test_decode_octUp : decode 0b0011_0000_0000_0000 = .instr .octUp := by decide +kernel
theorem test_decode_octDown : decode 0b0100_0000_0000_0000 = .instr .octDown := by decide +kernel
theorem test_decode_waveCycle : decode 0b0101_0000_0000_0000 = .instr .waveCycle := by decide +kernel
theorem test_decode_filtToggle : decode 0b0110_0000_0000_0000 = .instr .filtToggle := by decide +kernel
theorem test_decode_cutUp : decode 0b0111_0000_0000_0000 = .instr .cutUp := by decide +kernel
theorem test_decode_cutDown : decode 0b1000_0000_0000_0000 = .instr .cutDown := by decide +kernel
theorem test_decode_resUp : decode 0b1001_0000_0000_0000 = .instr .resUp := by decide +kernel
theorem test_decode_resDown : decode 0b1010_0000_0000_0000 = .instr .resDown := by decide +kernel
theorem test_decode_clrOvf : decode 0b1011_0000_0000_0000 = .instr .clrOvf := by decide +kernel

/-- Every RESERVED word of 95_test_vectors.md 2.1. -/
theorem test_decode_reserved :
    [0x100C, 0x100F, 0x1010, 0x2001, 0x2080, 0x3001, 0x0001, 0x0100, 0xC000, 0xD000, 0xE000, 0xFFFF, 0xF123].map
      decode = [.reserved 0x100C, .reserved 0x100F, .reserved 0x1010, .reserved 0x2001, .reserved 0x2080,
        .reserved 0x3001, .reserved 0x0001, .reserved 0x0100, .reserved 0xC000, .reserved 0xD000,
        .reserved 0xE000, .reserved 0xFFFF, .reserved 0xF123] := by decide +kernel

theorem test_decodeTableWord_noteOn : decodeTableWord 16 0x1009 = some (.noteOn 0 9) := by decide +kernel
theorem test_decodeTableWord_reserved : decodeTableWord 16 0x2001 = none := by decide +kernel

/-! ### One step per command: the TICK that applies its word -/

/-- R150: the TICK returns 0 and the word has left the FIFO. -/
theorem test_nop : after (step (State.reset.withFetchWord 16 0x0000)) (fun t => (t.output, t.fifo)) =
    some (.sample 0, []) := by decide +kernel

/-- R140: the example. -/
theorem test_noteOn : after (step (State.reset.withFetchWord 16 0x1009)) (fun t => (t.output, t.voices[0]?)) =
    some (.sample 0, some ⟨true, 9, 4, 42852281, 0, 0⟩) := by decide +kernel

/-- T2: a retrigger restarts from phase 0. -/
theorem test_noteOn_retriggers :
    after (step ((playing []).setVoices [⟨true, 9, 4, 0x051BBF72, 1, 2⟩] |>.setOctave 4 |> fun s =>
      State.withFetchWord { s with config := { s.config with numVoices := 1 } } 16 0x1009))
      (fun t => t.voices) = some [⟨true, 9, 4, 0x028DDFB9, 0, 0⟩] := by decide +kernel

/-- R141: the slot goes Idle and its other fields stay. -/
theorem test_noteOff : after (step ((playing []).withFetchWord 16 0x2000)) (fun t => (t.output, t.voices[0]?)) =
    some (.sample 0, some ⟨false, 9, 4, 0, 0, 0⟩) := by decide +kernel

/-- T11's rule for NOTE_OFF: with 8 slots, slot 9 is ignored. -/
theorem test_noteOff_absent : after (exec (.noteOff 9) eight) (fun t => decide (t = eight)) = some true := by
  decide +kernel

/-- R151, R22. -/
theorem test_octUp : after (step (State.reset.withFetchWord 16 0x3000)) State.octave = some 5 := by decide +kernel
/-- R151: at 6 it stays 6. -/
theorem test_octUp_clamps : after (exec .octUp (State.reset.setOctave 6)) State.octave = some 6 := by decide +kernel

/-- R152, R22. -/
theorem test_octDown : after (step (State.reset.withFetchWord 16 0x4000)) State.octave = some 3 := by decide +kernel
/-- R152: at 0 it stays 0. -/
theorem test_octDown_clamps : after (exec .octDown (State.reset.setOctave 0)) State.octave = some 0 := by
  decide +kernel

/-- R153: Sine to Square. -/
theorem test_waveCycle : after (step (State.reset.withFetchWord 16 0x5000)) State.wave = some .square := by
  decide +kernel
/-- R153: Saw wraps to Sine. -/
theorem test_waveCycle_wraps : after (exec .waveCycle (State.reset.setWave .saw)) State.wave = some .sine := by
  decide +kernel

/-- R154: the filter is on, so a voice's first sample is 0 even for a square (R130). -/
theorem test_filtToggle :
    after (step (((playing []).setWave .square).withFetchWord 16 0x6000)) (fun t => (t.filtEn, t.output)) =
      some (true, .sample 0) := by decide +kernel
/-- R154: on goes to off. -/
theorem test_filtToggle_off : after (exec .filtToggle (State.reset.setFiltEn true)) State.filtEn = some false := by
  decide +kernel

/-- R155, R22. -/
theorem test_cutUp : after (step (State.reset.withFetchWord 16 0x7000)) State.cutoff = some 1100 := by decide +kernel
/-- R155: at 5000 it stays 5000. -/
theorem test_cutUp_clamps : after (exec .cutUp (State.reset.setCutoff 5000)) State.cutoff = some 5000 := by
  decide +kernel

/-- R156, R22. -/
theorem test_cutDown : after (step (State.reset.withFetchWord 16 0x8000)) State.cutoff = some 900 := by
  decide +kernel
/-- R156: at 100 it stays 100. -/
theorem test_cutDown_clamps : after (exec .cutDown (State.reset.setCutoff 100)) State.cutoff = some 100 := by
  decide +kernel

/-- R157, R22. -/
theorem test_resUp : after (step (State.reset.withFetchWord 16 0x9000)) State.resIdx = some 1 := by decide +kernel
/-- R157: at 15 it stays 15. -/
theorem test_resUp_clamps : after (exec .resUp (State.reset.setResIdx 15)) State.resIdx = some 15 := by decide +kernel

/-- R158. -/
theorem test_resDown : after (exec .resDown (State.reset.setResIdx 15)) State.resIdx = some 14 := by decide +kernel
/-- R158: at 0 it stays 0. -/
theorem test_resDown_clamps : after (step (State.reset.withFetchWord 16 0xA000)) State.resIdx = some 0 := by
  decide +kernel

/-- R159. -/
theorem test_clrOvf : after (step ((State.reset.setOvf true).withFetchWord 16 0xB000)) State.ovf = some false := by
  decide +kernel

/-- R160: a RESERVED word leaves its FIFO entry and nothing else. -/
theorem test_reserved : after (step (State.reset.withFetchWord 16 0xF123))
    (fun t => decide (t = State.reset.setOutput (.sample 0))) = some true := by decide +kernel

/-! ### The TICK, the ports and the arithmetic -/

/-- T1: the sample at one tuning word, 1051060. -/
theorem test_tick_sine : after (step ((playing [.tick]).setVoices
    (⟨true, 9, 4, 42852281, 0, 0⟩ :: List.replicate 15 Voice.reset))) State.output = some (.sample 1051060) := by
  decide +kernel

/-- T8: the third TICK of a filtered sine, 21299, leaves L = 21299 and B = 402650. -/
theorem test_tick_filtered : after (step (((playing [.tick]).setFiltEn true).setVoices
    (⟨true, 9, 4, 0x051BBF72, 0, 149623⟩ :: List.replicate 15 Voice.reset)))
    (fun t => (t.output, t.voices[0]?)) = some (.sample 21299, some ⟨true, 9, 4, 0x07A99F2B, 21299, 402650⟩) := by
  decide +kernel

/-- G12: two squares at full scale clip to ONE (R182). -/
theorem test_tick_clips : after (step (((playing [.tick]).setWave .square).setVoices
    ([startedVoice 4 0, startedVoice 4 4] ++ List.replicate 14 Voice.reset))) State.output =
    some (.sample 16777216) := by decide +kernel

/-- Q1: the seventeenth word is dropped and sets `OVF`. -/
theorem test_cmdWrite_full : after (step ((asked [.cmdWrite 0]).setFifo (List.replicate 16 0)))
    (fun t => (t.fifoCount, t.ovf)) = some (16, true) := by decide +kernel

/-- Q2: `STATUS` with a full FIFO and `OVF`. -/
theorem test_statusRead : after (step (((asked [.statusRead]).setFifo (List.replicate 16 0)).setOvf true))
    State.output = some (.status 0x00000110) := by decide +kernel

/-- R220. -/
theorem test_reset : after (step ((playing [.reset]).setOvf true)) (fun t => decide (t = State.reset)) = some true := by
  decide +kernel

/-- R221. -/
theorem test_powerOn_refuses : refusal (step (poweredOn [.tick])) = some .beforeFirstReset := by decide +kernel

/-- R214. -/
theorem test_unreachable_refuses : refusal (step ((asked [.tick]).setOctave 7)) = some .unreachableState := by
  decide +kernel

/-- 95_test_vectors.md 2.4: the floor of a negative product. -/
theorem test_mulq_floors : mulq (-3) (asr ONE 1) = -2 ∧ mulq (-1) 1 = -1 := by decide +kernel

/-- 95_test_vectors.md 2.4. -/
theorem test_sat32 : sat32 (2 ^ 31) = 2147483647 ∧ sat32 (-(2 ^ 31) - 1) = -2147483648 := by decide +kernel

/-- 95_test_vectors.md 2.3: the interpolation from entry 1023 toward entry 0 floors to -1. -/
theorem test_osc_sine : osc 0xFFFFFFFF .sine = -1 ∧ osc 0x00200000 .sine = 51471 := by decide +kernel

/-- 95_test_vectors.md 2.5 F5: both saturations of one call. -/
theorem test_svf_saturates : svf ONE (2 ^ 31 - 1) (2 ^ 31 - 1) ⟨coefF 44100 5000, coefQD 15⟩ =
    ⟨2147483647, 2147483647, 649806079⟩ := by decide +kernel

/-- 95_test_vectors.md 2.2 and R93: the words computed from R93 at 44100 are the listed ones. -/
theorem test_tuningWord : tuningWord 44100 4 9 = 42852281 ∧ tuningWord 44100 6 11 = 192400238 := by decide +kernel

/-- P2's third line (R80): NOTE_ON 3, C is the CMD_WRITE of 0x1300. -/
theorem test_assemble : (parseLine "note_on 3, C ; 0x1300").map
    (Option.map (AsmLine.expand Config.default)) = some (some [.cmdWrite 0x1300]) := by decide +kernel

/-- A note name spelled by a letter and what follows it. -/
def spelled (accidental : List Char) (letter : Char) : Option Nat := noteNumber (String.ofList (letter :: accidental))

/-- R82: every name it gives, letters first, then the raised and the lowered ones. -/
theorem test_noteNumber :
    "CDEFGAB".toList.map (spelled []) = [0, 2, 4, 5, 7, 9, 11].map some ∧
      "CDFGA".toList.map (spelled ['#']) = [1, 3, 6, 8, 10].map some ∧
      "DEGAB".toList.map (spelled ['b']) = [1, 3, 6, 8, 10].map some := by decide +kernel

/-- R82 names no class by raising E or B, by lowering C or F, or by another letter. -/
theorem test_noteNumber_none :
    "EB".toList.map (spelled ['#']) = [none, none] ∧ "CF".toList.map (spelled ['b']) = [none, none] ∧
      "Hc ".toList.map (spelled []) = [none, none, none] := by decide +kernel

/-- R226, D29: the default deadline is one sample period of the `FS` given. -/
theorem test_tickDeadline : (({ fs := 48000 } : Config).tickDeadline = { num := 1, den := 48000 }) ∧
    Config.default.tickDeadline = { num := 1, den := 44100 } := by decide +kernel

/-! ### Witnesses: states that meet the hypotheses of the statements -/

theorem witness_DecodeOfEncodeIsTheCommand : (Instr.noteOn 15 11).wellFormed = true := by decide

theorem witness_EncodeOfDecodeIsTheWord : decode 0x1F0B = .instr (.noteOn 15 11) := by decide +kernel

/-- One word for each disjunct, and a FIFO with one place left. -/
theorem witness_ReservedWordsAreExactlyTheRest :
    [0xC000, 0x1010, 0x3100, 0x3001, 0x100C].map decode =
        [.reserved 0xC000, .reserved 0x1010, .reserved 0x3100, .reserved 0x3001, .reserved 0x100C] ∧
      (State.reset.setFifo (List.replicate 15 0)).fifoCount < State.reset.config.cmdFifoDepth := by decide +kernel

theorem witness_OpcodeMapMatchAndMask : eight.config.numVoices ≤ (8 : BitVec 4).toNat := by decide

theorem witness_NopDoesNothing :
    (State.reset.setFifo (List.replicate 15 0)).fifoCount < State.reset.config.cmdFifoDepth := by decide

/-- An absent slot, the last slot present, the greatest note, and a word with note 12. -/
theorem witness_NoteOnStartsTheSlot : (11 : BitVec 4).toNat ≤ 11 ∧
    eight.config.numVoices ≤ (8 : BitVec 4).toNat ∧
    (7 : BitVec 4).toNat < eight.config.numVoices ∧ (7 : BitVec 4).toNat < eight.voices.length ∧
    (0x1F0C : CmdWord) &&& 0xF0F0 = 0x1000 ∧ 11 < field (0x1F0C : CmdWord) 3 0 := by decide

theorem witness_NoteOffEndsTheSlot :
    eight.config.numVoices ≤ (8 : BitVec 4).toNat ∧ (7 : BitVec 4).toNat < eight.config.numVoices ∧
    (∀ v, eight.voices[(7 : BitVec 4).toNat]? = some v → v.active = false) ∧
    (∃ u t v, exec (.noteOn 7 11) eight = .next u ∧ exec (.noteOff 7) u = .next t ∧
      t.voices[(7 : BitVec 4).toNat]? = some v) ∧
    (∃ u t v, exec (.noteOff 7) eight = .next u ∧ exec (.noteOn 7 11) u = .next t ∧
      t.voices[(7 : BitVec 4).toNat]? = some v) :=
  ⟨by decide, by decide, fun v hv => by cases hv; rfl, ⟨_, _, _, rfl, rfl, rfl⟩, ⟨_, _, _, rfl, rfl, rfl⟩⟩

theorem witness_AbsentSlotsAreIgnored : eight.config.numVoices ≤ (8 : BitVec 4).toNat := by decide

theorem witness_IllFormedNoteOnActsAsItsReservedWord : 11 < (12 : BitVec 4).toNat := by decide

theorem witness_WaveCyclesThroughThreeWaveforms :
    (∃ t u v, exec .waveCycle State.reset = .next t ∧ exec .waveCycle t = .next u ∧
      exec .waveCycle u = .next v) ∧
    ((queued [0x5000]).Ready ∧ (queued [0x5000]).pending = .tick :: [] ∧ (queued [0x5000]).fifo = [0x5000] ∧
      ∃ t, exec .waveCycle (((queued [0x5000]).setPending []).setFifo []) = .next t) :=
  ⟨⟨_, _, _, rfl, rfl, rfl⟩, by decide +kernel, rfl, rfl, _, rfl⟩

/-- One TICK for each of the two commands, at a bound of the cutoff. -/
theorem witness_CutoffMovesByOneStepWithinItsBounds :
    (((queued [0x7000]).setCutoff 5000).Ready ∧ (queued [0x7000]).fifo = [0x7000] ∧
      ∃ t, exec .cutUp ((((queued [0x7000]).setCutoff 5000).setPending []).setFifo []) = .next t) ∧
    (((queued [0x8000]).setCutoff 100).Ready ∧ (queued [0x8000]).fifo = [0x8000] ∧
      ∃ t, exec .cutDown ((((queued [0x8000]).setCutoff 100).setPending []).setFifo []) = .next t) :=
  ⟨⟨by decide +kernel, rfl, _, rfl⟩, by decide +kernel, rfl, _, rfl⟩

theorem witness_FilterToggleFlipsTheEnable :
    ∃ t u, exec .filtToggle State.reset = .next t ∧ exec .filtToggle t = .next u := ⟨_, _, rfl, rfl⟩

theorem witness_ClearOverflowClearsTheFlag :
    State.reset.config.cmdFifoDepth ≤ (State.reset.setFifo (List.replicate 16 0)).fifoCount := by decide

/-- For each clause a command that makes the difference it speaks of. -/
theorem witness_CommandsWriteOnlyTheirRegisters :
    after (exec .octUp State.reset) (fun t => decide (t.octave ≠ State.reset.octave)) = some true ∧
    after (exec .waveCycle State.reset) (fun t => decide (t.wave ≠ State.reset.wave)) = some true ∧
    after (exec .filtToggle State.reset) (fun t => decide (t.filtEn ≠ State.reset.filtEn)) = some true ∧
    after (exec .cutDown State.reset) (fun t => decide (t.cutoff ≠ State.reset.cutoff)) = some true ∧
    after (exec .resUp State.reset) (fun t => decide (t.resIdx ≠ State.reset.resIdx)) = some true ∧
    after (exec .clrOvf (State.reset.setOvf true)) (fun t => decide (t.ovf ≠ true)) = some true ∧
    after (exec (.noteOn 15 11) State.reset)
      (fun t => decide (t.voices[15]? ≠ State.reset.voices[15]?)) = some true := by decide +kernel

theorem witness_RepeatedStepsSaturate : State.reset.Legal := by decide

theorem witness_StepRunsTheDecodedCommand :
    ((queued [0x1F0B, 0x3000]).Ready ∧ (queued [0x1F0B, 0x3000]).pending = .tick :: [] ∧
      decode 0x1F0B = .instr (.noteOn 15 11) ∧
      ∃ t, exec (.noteOn 15 11) (((queued [0x1F0B, 0x3000]).setPending []).setFifo [0x3000]) = .next t) ∧
    ((queued [0x100C]).Ready ∧ decode 0x100C = .reserved 0x100C) ∧
    ((queued []).Ready ∧ (queued []).fifo = []) ∧
    (State.reset.Ready ∧ decodeTableWord 16 0x1F0B = some (.noteOn 15 11)) :=
  ⟨⟨by decide +kernel, rfl, by decide +kernel, _, rfl⟩, ⟨by decide +kernel, by decide +kernel⟩,
    ⟨by decide +kernel, rfl⟩, ⟨by decide +kernel, by decide +kernel⟩⟩

/-- A TICK that meets a command, a sounding slot and Idle slots. -/
theorem witness_TickAppliesEvaluatesAndMixes :
    ((playing [.tick]).setFifo [0x6000]).Ready ∧ ((playing [.tick]).setFifo [0x6000]).pending = .tick :: [] ∧
      (∃ v, (playing [.tick]).voices[0]? = some v ∧ v.active = true) ∧
      (∃ v, (playing [.tick]).voices[15]? = some v ∧ v.active = false) ∧
      ∃ u, applyWord 0x6000 ((playing [.tick]).setFifo []) = .next u :=
  ⟨by decide +kernel, rfl, ⟨_, rfl, rfl⟩, ⟨_, rfl, rfl⟩, applyWord_witness⟩
where
  applyWord_witness : ∃ u, applyWord 0x6000 ((playing [.tick]).setFifo []) = .next u := ⟨_, rfl⟩

theorem witness_AcceptedWordsAreAppliedInOrder :
    (((asked [.cmdWrite 0x3000, .tick]).setFifo (List.replicate 15 0)).Ready ∧
      ((asked [.cmdWrite 0x3000, .tick]).setFifo (List.replicate 15 0)).fifoCount < State.reset.config.cmdFifoDepth) ∧
    (((asked [.cmdWrite 0x3000, .tick]).setFifo (List.replicate 16 0)).Ready ∧
      State.reset.config.cmdFifoDepth ≤ ((asked [.cmdWrite 0x3000, .tick]).setFifo (List.replicate 16 0)).fifoCount) ∧
    (playing [.cmdWrite 0x3000, .reset, .tick]).Ready := by decide +kernel

theorem witness_SlotOrderDoesNotChangeTheSample :
    (playing [.tick]).Ready ∧ (playing [.tick]).pending = .tick :: [] ∧ (playing [.tick]).fifo = [] ∧
      (playing [.tick]).voices.Perm (playing [.tick]).voices.reverse :=
  ⟨by decide +kernel, rfl, rfl, (List.reverse_perm _).symm⟩

theorem witness_EverySampleIsWithinFullScale :
    (playing [.tick]).Ready ∧ (playing [.tick]).pending = .tick :: [] := by decide +kernel

theorem witness_MixAccumulatorNeverOverflows : (playing []).Ready := by decide +kernel

/-- A TICK that stops the one voice, and one that applies the sixteen words of `ALL_OFF`. -/
theorem witness_SilenceIsExactlyZero :
    (((playing [.tick]).setFifo [0x2000]).Ready ∧
      ∀ u, drainWords [0x2000] (((playing [.tick]).setFifo [0x2000]).setPending []) = .next u → u.Silent) ∧
    (((playing [.tick]).setFifo ((List.range 16).map fun k => BitVec.ofNat 16 (0x2000 + 0x100 * k))).Ready ∧
      ((List.range 16).map fun k => BitVec.ofNat 16 (0x2000 + 0x100 * k)).map PortOp.cmdWrite =
        AsmLine.allOff.expand (playing [.tick]).config) := by
  refine ⟨⟨by decide +kernel, fun u h => ?_⟩, by decide +kernel, by decide +kernel⟩
  cases h
  decide +kernel

/-- The first TICK and the second of a voice alone. -/
theorem witness_SoloVoicePlaysItsWaveform :
    (playing [.tick, .tick]).Ready ∧ (playing [.tick, .tick]).fifo = [] ∧
      (playing [.tick, .tick]).pending = List.replicate (1 + 1) .tick ++ [] ∧
      (playing [.tick, .tick]).pending = List.replicate (0 + 1) .tick ++ [.tick] ∧
      (playing [.tick, .tick]).filtEn = false ∧ (playing [.tick, .tick]).voices[0]? = some (startedVoice 4 9) ∧
      (startedVoice 4 9).active = true ∧
      ∀ (j : Nat) (u : Voice), (playing [.tick, .tick]).voices[j]? = some u → u.active = true → j = 0 := by
  refine ⟨by decide +kernel, rfl, rfl, rfl, rfl, rfl, rfl, fun j u hj ha => ?_⟩
  cases j with
  | zero => rfl
  | succ j =>
    have hu : u = Voice.reset := List.eq_of_mem_replicate (List.mem_of_getElem? (i := j) (l := List.replicate 15 _) hj)
    rw [hu] at ha
    cases ha

theorem witness_BlocksHaveOneSamplePerTick :
    (playing [.tick, .tick]).Ready ∧ (playing [.tick, .tick]).pending = List.replicate 2 .tick ++ [] ∧
      (playing [.statusRead]).pending = List.replicate 0 .tick ++ [.statusRead] := by decide +kernel

theorem witness_SineInterpolatesTheRom : 1023 < 1024 ∧ 4194303 < 2 ^ 22 := by decide

/-- The least sample rate and the highest note; and the default rate. -/
theorem witness_TuningWordsRoundTheReference : FS_MIN ≤ 36781 ∧ FS_MIN ≤ 44100 ∧ 6 ≤ 6 ∧ 11 ≤ 11 := by decide

theorem witness_TuningIsAccurateToHalfAStep : FS_MIN ≤ 36781 ∧ FS_MIN ≤ 44100 ∧ 6 ≤ 6 ∧ 11 ≤ 11 := by decide

theorem witness_FilterRegistersHoldEveryResult :
    (startedVoice 4 9).active = true ∧ (laneInputs ((playing []).setFiltEn true)).filtEn = true := by decide +kernel

theorem witness_FilterOutputLagsOneSample :
    (laneInputs ((playing []).setFiltEn true)).filtEn = true := by decide +kernel

theorem witness_CoefficientsFollowTheTables : CutoffLegal 100 ∧ CutoffLegal 5000 ∧ FS_MIN ≤ 36781 := by decide

/-- A legal setting, and a pole of it: the quadratic has a root. -/
theorem witness_EveryLegalFilterSettingIsStable : CutoffLegal 5000 ∧
    ∀ b c : ℂ, ∃ z : ℂ, z ^ 2 - b * z + c = 0 := by
  refine ⟨by decide, fun b c => ?_⟩
  obtain ⟨d, hd⟩ := IsAlgClosed.exists_pow_nat_eq (b ^ 2 - 4 * c) (n := 2) (by decide)
  exact ⟨(b + d) / 2, by linear_combination hd / 4⟩

theorem witness_CommandWritePushesOrDrops :
    (((asked [.cmdWrite 0xFFFF]).setFifo (List.replicate 15 0)).Ready ∧
      ((asked [.cmdWrite 0xFFFF]).setFifo (List.replicate 15 0)).fifo.length < State.reset.config.cmdFifoDepth) ∧
    (((asked [.cmdWrite 0xFFFF]).setFifo (List.replicate 16 0)).Ready ∧
      ((asked [.cmdWrite 0xFFFF]).setFifo (List.replicate 16 0)).fifo.length = State.reset.config.cmdFifoDepth) := by
  decide +kernel

/-- A full FIFO with `OVF` set, before the read and before a TICK. -/
theorem witness_StatusReadShowsCountAndOverflow :
    (((asked [.tick, .statusRead]).setFifo (List.replicate 16 0)).setOvf true).Ready ∧
      (((asked [.tick, .statusRead]).setFifo (List.replicate 16 0)).setOvf true).pending =
        .tick :: .statusRead :: [] ∧
    (((asked [.statusRead]).setFifo (List.replicate 16 0)).setOvf true).Ready ∧
      (((asked [.statusRead]).setFifo (List.replicate 16 0)).setOvf true).pending = .statusRead :: [] := by
  decide +kernel

theorem witness_ResetRestoresTheStartupState :
    ((playing [.reset, .tick]).config.Legal ∧ (playing [.reset, .tick]).Legal ∧
      (playing [.reset, .tick]).pending = .reset :: .tick :: []) ∧
    ((poweredOn [.reset, .tick]).config.Legal ∧ (poweredOn [.reset, .tick]).resetDone = false ∧
      (poweredOn [.reset, .tick]).pending = .reset :: .tick :: []) := by decide +kernel

theorem witness_PowerOnIsRefusedUntilReset :
    (poweredOn []).resetDone = false ∧ (poweredOn []).config.Legal ∧
      (poweredOn [.cmdWrite 0]).pending = .cmdWrite 0 :: [] ∧ (poweredOn [.tick]).pending = .tick :: [] ∧
      (poweredOn [.statusRead]).pending = .statusRead :: [] ∧ (poweredOn [.reset]).pending = .reset :: [] := by
  decide +kernel

/-- One state for each clause: `OCTAVE` 7, `CUTOFF` 0 and 5100, a sounding note 12, a sounding octave 7,
17 words in the FIFO. -/
theorem witness_UnreachableStatesAreRefused :
    ((asked [.tick]).setOctave 7).octave.toNat = 7 ∧
    (¬ ∃ k, 1 ≤ k ∧ k ≤ 50 ∧ ((asked [.tick]).setCutoff 0).cutoff.toNat = 100 * k) ∧
    (¬ ∃ k, 1 ≤ k ∧ k ≤ 50 ∧ ((asked [.tick]).setCutoff 5100).cutoff.toNat = 100 * k) ∧
    (∃ v ∈ ((asked [.reset]).setVoices [startedVoice 4 12]).voices, v.active = true ∧ 11 < v.note.toNat) ∧
    (∃ v ∈ ((asked [.reset]).setVoices [startedVoice 7 0]).voices, v.active = true ∧ 6 < v.voct.toNat) ∧
    State.reset.config.cmdFifoDepth < ((asked [.tick]).setFifo (List.replicate 17 0)).fifo.length ∧
    (asked [.tick]).resetDone = true := by
  refine ⟨by decide, fun ⟨k, h1, _, h3⟩ => ?_, fun ⟨k, _, h2, h3⟩ => ?_, by decide, by decide, by decide, by decide⟩
  · have h0 : ((asked [.tick]).setCutoff 0).cutoff.toNat = 0 := by decide
    omega
  · have h0 : ((asked [.tick]).setCutoff 5100).cutoff.toNat = 5100 := by decide
    omega

/-- The least and the greatest parameters. -/
theorem witness_StateAfterResetIsReady :
    Config.Legal { fs := 36781, numVoices := 1, cmdFifoDepth := 1 } ∧
      Config.Legal { fs := 192000, numVoices := 16, cmdFifoDepth := 31 } := by decide

theorem witness_EveryStepKeepsTheInvariants :
    (playing [.tick]).Ready ∧ (after (step (playing [.tick])) fun _ => ()) = some () := by decide +kernel

theorem witness_EveryRequestIsTaken : (playing [.tick]).Ready ∧ (playing []).Ready := by decide +kernel

theorem witness_ParametersAreNeverWritten : (after (step (playing [.reset])) fun _ => ()) = some () := by
  decide +kernel

theorem witness_ByteOrderAndDeadlineDoNotMatter :
    (after (step (playing [.tick])) fun _ => ()) = some () ∧
      refusal (step (poweredOn [.tick])) = some .beforeFirstReset := by decide +kernel

/-- Two blocks that differ in the stale note of an Idle slot, next to a sounding one. -/
theorem witness_IdleFieldsAreNeverHeard :
    (playing [.tick]).Ready ∧ (playing [.tick]).SoundsLike
      ((playing [.tick]).setVoices (startedVoice 4 9 :: ⟨false, 13, 7, 1, 2, 3⟩ :: List.replicate 14 Voice.reset)) :=
  ⟨by decide +kernel, rfl, .cons ⟨rfl, fun _ => rfl⟩ (.cons ⟨rfl, fun h => by cases h⟩
    (List.forall₂_same.2 fun _ _ => ⟨rfl, fun _ => rfl⟩))⟩

theorem witness_HostStepsLeaveTheSoundAlone :
    (playing [.cmdWrite 0x2000]).Ready ∧ (PortOp.cmdWrite 0x2000).agent = .host ∧
      PortOp.statusRead.agent = .host ∧ PortOp.cmdWrite 0x2000 ≠ .reset ∧ PortOp.statusRead ≠ .reset := by
  decide +kernel

/-- For each clause a step it speaks of: a drop at a full FIFO, `OVF` set, and `OVF` cleared twice over. -/
theorem witness_OverflowFlagIsSticky :
    (((asked [.cmdWrite 0xB000]).setFifo (List.replicate 16 0)).Ready ∧
      ((asked [.cmdWrite 0xB000]).setFifo (List.replicate 16 0)).fifo.length = State.reset.config.cmdFifoDepth ∧
      after (step ((asked [.cmdWrite 0xB000]).setFifo (List.replicate 16 0))) State.ovf = some true) ∧
    (((queued [0xB000]).setOvf true).Ready ∧
      after (step ((queued [0xB000]).setOvf true)) State.ovf = some false) ∧
    (((asked [.reset]).setOvf true).Ready ∧
      after (step ((asked [.reset]).setOvf true)) State.ovf = some false) := by decide +kernel

/-- Steps that do change a captured pitch: a NOTE_ON applied by a TICK, and RESET. -/
theorem witness_CapturedPitchNeverMoves :
    (((playing [.tick]).setFifo [0x100B]).Ready ∧ (playing [.tick]).voices[0]?.map Voice.note = some 9 ∧
      after (step ((playing [.tick]).setFifo [0x100B])) (fun t => t.voices[0]?.map Voice.note) = some (some 11)) ∧
    ((playing [.reset]).Ready ∧
      after (step (playing [.reset])) (fun t => t.voices[0]?.map Voice.voct) = some (some 0)) := by decide +kernel

theorem witness_IdleBlockKeepsItsState : (playing []).pending = [] := by decide

end Sys2Proof.Tests
end

