-- ==== Sys2Proof/Proofs/StepCases.lean ====
section
/-!
SUPPORT. What a completed step can be, from any state whatever: the refusals of R214 and R221 leave three cases.
-/

namespace Sys2Proof.Machine

/-- Before the first RESET only RESET completes (R221). -/
theorem performPowerOn_cases {op : PortOp} {s t : State} (h : performPowerOn op s = .next t) :
    op = .reset ∧ t = resetBlock s := by
  cases op with
  | reset => cases h; exact ⟨rfl, rfl⟩
  | cmdWrite | statusRead | tick => cases h

/-- A port operation that completes is one of a block in operation, or the first RESET (R214, R221). -/
theorem perform_cases {op : PortOp} {s t : State} (h : perform op s = .next t) :
    (s.Ready ∧ performLegal op s = .next t) ∨
      (s.resetDone = false ∧ s.config.Legal ∧ op = .reset ∧ t = resetBlock s) := by
  unfold perform at h
  split at h
  case isTrue hd =>
    split at h
    case isTrue hl => exact .inl ⟨⟨hd, hl⟩, h⟩
    case isFalse => cases h
  case isFalse hd =>
    split at h
    case isTrue hc => exact .inr ⟨Bool.eq_false_of_not_eq_true hd, hc, performPowerOn_cases h⟩
    case isFalse => cases h

/-- What a step that completes can do: nothing (R212), the oldest request of a block in operation (R58), or the
first RESET (R221). -/
theorem step_cases {s t : State} (h : step s = .next t) :
    (s.pending = [] ∧ t = s) ∨
      (∃ op rest, s.pending = op :: rest ∧ s.Ready ∧ performLegal op (s.setPending rest) = .next t) ∨
      (∃ rest, s.pending = .reset :: rest ∧ s.resetDone = false ∧ s.config.Legal ∧
        t = (State.resetValues s.config).setPending rest) := by
  cases hp : s.pending with
  | nil =>
    rw [step_of_idle hp] at h
    cases h; exact .inl ⟨rfl, rfl⟩
  | cons op rest =>
    have hperf : perform op (s.setPending rest) = .next t := by simpa only [step, takeStep, hp] using h
    obtain ⟨ready, hop⟩ | ⟨hd, hc, rfl, rfl⟩ := perform_cases hperf
    · exact .inr (.inl ⟨op, rest, rfl, ready, hop⟩)
    · exact .inr (.inr ⟨rest, rfl, hd, hc, rfl⟩)

end Sys2Proof.Machine
end

