-- ==== Sys2Proof/Proofs/Parameters.lean ====
section
/-!
PROOF. The parameters of R5 are no state: no step writes them.
-/

namespace Sys2Proof.Machine

/-- Settles O48: a step leaves the state alone, or is a request of a block in operation, or is the first RESET,
which builds its values from the parameters it finds (R5, R38, R43). -/
theorem parametersAreNeverWritten : Obligations.ParametersAreNeverWritten := by
  intro s t h
  obtain ⟨-, rfl⟩ | ⟨op, rest, -, ready, hop⟩ | ⟨rest, -, -, -, rfl⟩ := step_cases h
  · rfl
  · obtain ⟨u, hu, -, -, config⟩ := performLegal_completes (s := s.setPending rest) ready op
    cases hop.symm.trans hu
    exact config
  · rfl

end Sys2Proof.Machine
end

