-- ==== Sys2Proof/Proofs/Invariants.lean ====
section
/-!
PROOF. The invariants of R42: RESET gives them and every step of a block in operation keeps them.
-/

namespace Sys2Proof.Machine

theorem resetValues_ready {c : Config} (h : c.Legal) : (State.resetValues c).Ready := ⟨rfl, resetValues_legal h⟩

theorem resetValues_silent (c : Config) : (State.resetValues c).Silent :=
  fun _ hv => by rw [List.eq_of_mem_replicate hv]; rfl

/-- Settles O45: the reset values are in operation for all legal parameters, the defaults among them. -/
theorem stateAfterResetIsReady : Obligations.StateAfterResetIsReady :=
  ⟨resetValues_ready (by decide), rfl, resetValues_silent _, fun _ => resetValues_ready⟩

/-- A step of a block in operation leaves it in operation. -/
theorem step_keeps_ready {s t : State} (hs : s.Ready) (h : step s = .next t) : t.Ready := by
  cases hp : s.pending with
  | nil =>
    rw [step_of_idle hp] at h
    cases h; exact hs
  | cons op rest =>
    obtain ⟨u, -, hstep, ready, -⟩ := step_completes hs hp
    cases hstep.symm.trans h
    exact ready

/-- A legal cutoff is one of 100, 200, ..., 5000 (R26). -/
theorem CutoffLegal.eq_multiple {c : Nat} (h : CutoffLegal c) : ∃ k, 1 ≤ k ∧ k ≤ 50 ∧ c = 100 * k := by
  refine ⟨c / 100, ?_⟩
  unfold CutoffLegal CUTOFF_MIN CUTOFF_MAX CUTOFF_STEP at h
  omega

theorem Waveform.code_le (w : Waveform) : w.code.toNat ≤ 2 := by cases w <;> decide

/-- `L`, `B` and `P` are in their 32-bit ranges, whatever the slot (R42). -/
theorem Voice.words_in_range (v : Voice) :
    -(2 ^ 31) ≤ v.l.toInt ∧ v.l.toInt ≤ 2 ^ 31 - 1 ∧
      -(2 ^ 31) ≤ v.b.toInt ∧ v.b.toInt ≤ 2 ^ 31 - 1 ∧ v.p.toNat < 2 ^ 32 :=
  ⟨BitVec.le_toInt v.l, Int.le_sub_one_of_lt (BitVec.toInt_lt (x := v.l)),
    BitVec.le_toInt v.b, Int.le_sub_one_of_lt (BitVec.toInt_lt (x := v.b)), v.p.isLt⟩

/-- Settles O46: the step leaves the block in operation; what the types do not bound already, `State.Legal` does. -/
theorem everyStepKeepsTheInvariants : Obligations.EveryStepKeepsTheInvariants := by
  intro s t hs h
  have ht : t.Ready := step_keeps_ready hs h
  have ⟨_, _, octave, cutoff, slots, voices, fifo⟩ := ht
  exact ⟨ht, octave, t.wave.code_le, cutoff.eq_multiple, Nat.le_of_lt_succ t.resIdx.isLt, voices,
    fun v _ => v.words_in_range, slots, fifo⟩

end Sys2Proof.Machine
end

