-- ==== Sys2Proof/Proofs/CommandWrites.lean ====
section
/-!
PROOF. What each command writes (R22, R29, R30, R36, R162), and from it the frame of every command.
-/

namespace Sys2Proof.Machine

/-- NOTE_ON with a pitch class rewrites the named slot (R140). -/
theorem exec_noteOn_of_present {note : BitVec 4} (h : notePresent note = true) (slot : BitVec 4) (s : State) :
    exec (.noteOn slot note) s = .next (onSlot slot (fun _ => startedVoice s.octave note) s) :=
  if_pos h

/-- NOTE_ON with note 12..15 changes nothing (log 10). -/
theorem exec_noteOn_of_absent {note : BitVec 4} (h : notePresent note = false) (slot : BitVec 4) (s : State) :
    exec (.noteOn slot note) s = .next s :=
  if_neg (Bool.eq_false_iff.1 h)

/-- The command names slot `k` of the voice array: it is a NOTE_ON or NOTE_OFF to it (R140, R141). -/
def NamesSlot (i : Instr) (k : Nat) : Prop :=
  (∃ slot note, i = .noteOn slot note ∧ slot.toNat = k) ∨ ∃ slot, i = .noteOff slot ∧ slot.toNat = k

/-- What command `i` can leave of `s`: at most one register, flag or slot is written, by a command named for it. -/
inductive CommandWrites (i : Instr) (s : State) : State → Prop
  | nothing : CommandWrites i s s
  | octave (v : BitVec 3) (hi : i = .octUp ∨ i = .octDown) : CommandWrites i s (s.setOctave v)
  | wave (v : Waveform) (hi : i = .waveCycle) : CommandWrites i s (s.setWave v)
  | filtEn (v : Bool) (hi : i = .filtToggle) : CommandWrites i s (s.setFiltEn v)
  | cutoff (v : BitVec 16) (hi : i = .cutUp ∨ i = .cutDown) : CommandWrites i s (s.setCutoff v)
  | resIdx (v : BitVec 4) (hi : i = .resUp ∨ i = .resDown) : CommandWrites i s (s.setResIdx v)
  | ovf (hi : i = .clrOvf) : CommandWrites i s (s.setOvf false)
  | slot (slot : BitVec 4) (f : Voice → Voice) (hi : NamesSlot i slot.toNat) :
      CommandWrites i s (s.setVoices (onSlot slot f s).voices)

theorem exec_writes {i : Instr} {s t : State} (h : exec i s = .next t) : CommandWrites i s t := by
  cases i with
  | noteOn slot note =>
    cases hn : notePresent note with
    | true =>
      cases (exec_noteOn_of_present hn slot s).symm.trans h
      rw [onSlot_eq_setVoices]; exact .slot slot _ (.inl ⟨slot, note, rfl, rfl⟩)
    | false => cases (exec_noteOn_of_absent hn slot s).symm.trans h; exact .nothing
  | noteOff slot => cases h; rw [onSlot_eq_setVoices]; exact .slot slot _ (.inr ⟨slot, rfl, rfl⟩)
  | nop => cases h; exact .nothing
  | octUp => cases h; exact .octave _ (.inl rfl)
  | octDown => cases h; exact .octave _ (.inr rfl)
  | waveCycle => cases h; exact .wave _ rfl
  | filtToggle => cases h; exact .filtEn _ rfl
  | cutUp => cases h; exact .cutoff _ (.inl rfl)
  | cutDown => cases h; exact .cutoff _ (.inr rfl)
  | resUp => cases h; exact .resIdx _ (.inl rfl)
  | resDown => cases h; exact .resIdx _ (.inr rfl)
  | clrOvf => cases h; exact .ovf rfl

namespace CommandWrites
variable {i : Instr} {s t : State} (h : CommandWrites i s t)
include h

theorem of_octave_ne (hne : t.octave ≠ s.octave) : i = .octUp ∨ i = .octDown := by
  cases h with
  | octave v hi => exact hi
  | _ => exact absurd rfl hne

theorem of_wave_ne (hne : t.wave ≠ s.wave) : i = .waveCycle := by
  cases h with
  | wave v hi => exact hi
  | _ => exact absurd rfl hne

theorem of_filtEn_ne (hne : t.filtEn ≠ s.filtEn) : i = .filtToggle := by
  cases h with
  | filtEn v hi => exact hi
  | _ => exact absurd rfl hne

theorem of_cutoff_ne (hne : t.cutoff ≠ s.cutoff) : i = .cutUp ∨ i = .cutDown := by
  cases h with
  | cutoff v hi => exact hi
  | _ => exact absurd rfl hne

theorem of_resIdx_ne (hne : t.resIdx ≠ s.resIdx) : i = .resUp ∨ i = .resDown := by
  cases h with
  | resIdx v hi => exact hi
  | _ => exact absurd rfl hne

theorem of_ovf_ne (hne : t.ovf ≠ s.ovf) : i = .clrOvf ∧ t.ovf = false := by
  cases h with
  | ovf hi => exact ⟨hi, rfl⟩
  | _ => exact absurd rfl hne

/-- A slot that differs is the one the operand names: the others keep their values (R143). -/
theorem of_slot_ne {k : Nat} (hne : t.voices[k]? ≠ s.voices[k]?) : NamesSlot i k := by
  cases h with
  | slot slot f hi =>
    rw [State.setVoices_voices, onSlot_getElem?] at hne
    split at hne
    case isTrue hk => exact hk.1 ▸ hi
    case isFalse => exact absurd rfl hne
  | _ => exact absurd rfl hne

theorem length_eq : t.voices.length = s.voices.length := by
  cases h with
  | slot slot f hi => exact onSlot_length slot f s
  | _ => rfl

end CommandWrites

/-- Settles O17: by what a command writes, and `CommandFrame` for the fields none writes. -/
theorem commandsWriteOnlyTheirRegisters : Obligations.CommandsWriteOnlyTheirRegisters := by
  intro i s t h
  have hw := exec_writes h
  obtain ⟨config, fifo, resetDone, pending, output⟩ := exec_frame h
  exact ⟨hw.of_octave_ne, hw.of_wave_ne, hw.of_filtEn_ne, hw.of_cutoff_ne, hw.of_resIdx_ne, hw.of_ovf_ne,
    fun _ => hw.of_slot_ne, hw.length_eq, config, fifo, resetDone, pending, output⟩

end Sys2Proof.Machine
end

