-- ==== Sys2Proof/Proofs/IdleFields.lean ====
section
/-!
PROOF. The stale fields of Idle slots are not observable (R29): every operation answers states that sound alike
from states that sound alike.
-/

namespace Sys2Proof.Machine

theorem Voice.SoundsLike.refl (v : Voice) : v.SoundsLike v := ⟨rfl, fun _ => rfl⟩

/-- Two slots that sound alike are both Idle or the same slot. -/
theorem Voice.SoundsLike.idle_or_eq {v u : Voice} (h : v.SoundsLike u) :
    (v.active = false ∧ u.active = false) ∨ u = v := by
  obtain ⟨hactive, heq⟩ := h
  cases ha : v.active with
  | false => exact .inl ⟨rfl, hactive.trans ha⟩
  | true => exact .inr (heq ha)

theorem Voice.SoundsLike.legal {v u : Voice} (h : v.SoundsLike u) (hv : v.Legal) : u.Legal := by
  obtain ⟨-, hu⟩ | rfl := h.idle_or_eq
  · intro ha; rw [hu] at ha; cases ha
  · exact hv

theorem laneSample_of_soundsLike {v u : Voice} (h : v.SoundsLike u) (c : LaneInputs) :
    laneSample c u = laneSample c v := by
  obtain ⟨hv, hu⟩ | rfl := h.idle_or_eq
  · rw [laneSample_of_idle hv, laneSample_of_idle hu]
  · rfl

theorem laneVoice_soundsLike {v u : Voice} (h : v.SoundsLike u) (c : LaneInputs) :
    (laneVoice c v).SoundsLike (laneVoice c u) := by
  obtain ⟨hv, hu⟩ | rfl := h.idle_or_eq
  · rwa [laneVoice_of_idle hv, laneVoice_of_idle hu]
  · exact .refl _

section voices
variable {vs us : List Voice} (h : List.Forall₂ Voice.SoundsLike vs us)
include h

theorem voices_legal_of_soundsLike (hv : ∀ v ∈ vs, v.Legal) : ∀ u ∈ us, u.Legal := by
  induction h with
  | nil => exact hv
  | cons hvu _ ih =>
    rw [List.forall_mem_cons] at hv ⊢
    exact ⟨hvu.legal hv.1, ih hv.2⟩

/-- Arrays that sound alike mix to the same sum (R182). -/
theorem mixSum_of_soundsLike (c : LaneInputs) : mixSum c us = mixSum c vs := by
  unfold mixSum
  induction h with
  | nil => rfl
  | cons hvu _ ih => rw [List.map_cons, List.map_cons, List.sum_cons, List.sum_cons, ih, laneSample_of_soundsLike hvu]

theorem map_laneVoice_soundsLike (c : LaneInputs) :
    List.Forall₂ Voice.SoundsLike (vs.map (laneVoice c)) (us.map (laneVoice c)) := by
  rw [List.forall₂_map_left_iff, List.forall₂_map_right_iff]
  exact h.imp fun _ _ hvu => laneVoice_soundsLike hvu c

/-- Rewriting one slot by a function that keeps slots alike keeps the arrays alike. -/
theorem modify_soundsLike {f : Voice → Voice} (hf : ∀ v u, v.SoundsLike u → (f v).SoundsLike (f u)) (i : Nat) :
    List.Forall₂ Voice.SoundsLike (vs.modify i f) (us.modify i f) := by
  induction h generalizing i with
  | nil => simp
  | cons hvu htail ih =>
    cases i with
    | zero => exact .cons (hf _ _ hvu) htail
    | succ i => exact .cons hvu (ih i)

end voices

/-- A state that sounds like `s` is `s` with another voice array. -/
theorem State.soundsLike_iff {s t : State} :
    s.SoundsLike t ↔ ∃ us, List.Forall₂ Voice.SoundsLike s.voices us ∧ t = s.setVoices us :=
  ⟨fun ⟨heq, hv⟩ => ⟨t.voices, hv, heq⟩, fun ⟨_, hv, heq⟩ => heq ▸ ⟨rfl, hv⟩⟩

theorem State.SoundsLike.refl (s : State) : s.SoundsLike s := ⟨rfl, List.forall₂_same.2 fun v _ => .refl v⟩

theorem State.SoundsLike.pending_eq {s t : State} (h : s.SoundsLike t) : t.pending = s.pending := by rw [h.1]; rfl

theorem State.SoundsLike.output_eq {s t : State} (h : s.SoundsLike t) : t.output = s.output := by rw [h.1]; rfl

theorem State.SoundsLike.fifo_eq {s t : State} (h : s.SoundsLike t) : t.fifo = s.fifo := by rw [h.1]; rfl

theorem State.SoundsLike.setFifo {s t : State} (h : s.SoundsLike t) (ws : List CmdWord) :
    (s.setFifo ws).SoundsLike (t.setFifo ws) := by
  obtain ⟨us, hv, rfl⟩ := State.soundsLike_iff.1 h
  exact ⟨rfl, hv⟩

theorem State.SoundsLike.setPending {s t : State} (h : s.SoundsLike t) (ops : List PortOp) :
    (s.setPending ops).SoundsLike (t.setPending ops) := by
  obtain ⟨us, hv, rfl⟩ := State.soundsLike_iff.1 h
  exact ⟨rfl, hv⟩

theorem State.SoundsLike.ready {s t : State} (h : s.SoundsLike t) (hs : s.Ready) : t.Ready := by
  obtain ⟨us, hv, rfl⟩ := State.soundsLike_iff.1 h
  obtain ⟨done, config, octave, cutoff, slots, voices, fifo⟩ := hs
  exact ⟨done, config, octave, cutoff, hv.length_eq.symm.trans slots, voices_legal_of_soundsLike hv voices, fifo⟩

/-- A slot operand names the same slot in both states. -/
theorem onSlot_soundsLike {s t : State} (h : s.SoundsLike t) {f : Voice → Voice}
    (hf : ∀ v u, v.SoundsLike u → (f v).SoundsLike (f u)) (slot : BitVec 4) :
    (onSlot slot f s).SoundsLike (onSlot slot f t) := by
  obtain ⟨us, hv, rfl⟩ := State.soundsLike_iff.1 h
  have hslot : slotPresent (s.setVoices us) slot = slotPresent s slot := rfl
  unfold onSlot
  rw [hslot]
  split
  · exact ⟨rfl, modify_soundsLike hv hf _⟩
  · exact h

/-- A command reads no stale field: NOTE_ON overwrites the slot, NOTE_OFF clears `ACTIVE` (R140, R141). -/
theorem exec_soundsLike {i : Instr} {s t s' : State} (h : s.SoundsLike t) (hi : exec i s = .next s') :
    ∃ t', exec i t = .next t' ∧ s'.SoundsLike t' := by
  obtain ⟨us, hv, rfl⟩ := State.soundsLike_iff.1 h
  cases i with
  | noteOn slot note =>
    cases hn : notePresent note with
    | true =>
      cases (exec_noteOn_of_present hn slot s).symm.trans hi
      exact ⟨_, exec_noteOn_of_present hn slot _, onSlot_soundsLike h (fun _ _ _ => .refl _) slot⟩
    | false =>
      cases (exec_noteOn_of_absent hn slot s).symm.trans hi
      exact ⟨_, exec_noteOn_of_absent hn slot _, h⟩
  | noteOff slot => cases hi; exact ⟨_, rfl, onSlot_soundsLike h (fun _ _ _ => ⟨rfl, fun ha => by cases ha⟩) slot⟩
  | _ => cases hi; exact ⟨_, rfl, rfl, hv⟩

theorem applyWord_soundsLike {w : CmdWord} {s t s' : State} (h : s.SoundsLike t) (hw : applyWord w s = .next s') :
    ∃ t', applyWord w t = .next t' ∧ s'.SoundsLike t' := by
  obtain ⟨i, hd, hi⟩ | ⟨⟨w', hd⟩, rfl⟩ := applyWord_cases hw
  · rw [applyWord_of_instr hd]; exact exec_soundsLike h hi
  · exact ⟨t, applyWord_of_reserved hd t, h⟩

theorem drainWords_soundsLike : ∀ (ws : List CmdWord) {s t s' : State}, s.SoundsLike t →
    drainWords ws s = .next s' → ∃ t', drainWords ws t = .next t' ∧ s'.SoundsLike t'
  | [], _, t, _, h, hd => by cases hd; exact ⟨t, rfl, h⟩
  | w :: ws, s, t, s', h, hd => by
    obtain ⟨a, ha⟩ := applyWord_completes w (s.setFifo ws)
    obtain ⟨b, hb, hab⟩ := applyWord_soundsLike (h.setFifo ws) ha
    rw [drainWords_cons ha] at hd
    rw [drainWords_cons hb]
    exact drainWords_soundsLike ws hab hd

/-- The sample is the same and the slots go on sounding alike (R182, R183). -/
theorem produceSample_soundsLike {s t : State} (h : s.SoundsLike t) : (produceSample s).SoundsLike (produceSample t) := by
  obtain ⟨us, hv, rfl⟩ := State.soundsLike_iff.1 h
  have hlane : laneInputs (s.setVoices us) = laneInputs s := rfl
  have hmix : mixSample (laneInputs s) us = mixSample (laneInputs s) s.voices := by
    unfold mixSample; rw [mixSum_of_soundsLike hv]
  rw [produceSample_eq, produceSample_eq, hlane, State.setVoices_voices, hmix]
  exact ⟨rfl, map_laneVoice_soundsLike hv _⟩

theorem cmdWrite_soundsLike {s t : State} (h : s.SoundsLike t) (w : CmdWord) :
    (cmdWrite w s).SoundsLike (cmdWrite w t) := by
  obtain ⟨us, hv, rfl⟩ := State.soundsLike_iff.1 h
  rcases Nat.lt_or_ge s.fifoCount s.config.cmdFifoDepth with hroom | hfull
  · have hroom' : (s.setVoices us).fifoCount < (s.setVoices us).config.cmdFifoDepth := hroom
    rw [cmdWrite_of_room hroom, cmdWrite_of_room hroom']; exact ⟨rfl, hv⟩
  · have hfull' : (s.setVoices us).config.cmdFifoDepth ≤ (s.setVoices us).fifoCount := hfull
    rw [cmdWrite_of_full hfull, cmdWrite_of_full hfull']; exact ⟨rfl, hv⟩

theorem performLegal_soundsLike {op : PortOp} {s t s' : State} (h : s.SoundsLike t)
    (hop : performLegal op s = .next s') : ∃ t', performLegal op t = .next t' ∧ s'.SoundsLike t' := by
  cases op with
  | cmdWrite w => cases hop; exact ⟨_, rfl, cmdWrite_soundsLike h w⟩
  | statusRead =>
    cases hop
    obtain ⟨us, hv, rfl⟩ := State.soundsLike_iff.1 h
    exact ⟨_, rfl, rfl, hv⟩
  | reset =>
    cases hop
    obtain ⟨us, -, rfl⟩ := State.soundsLike_iff.1 h
    exact ⟨_, rfl, .refl _⟩
  | tick =>
    obtain ⟨a, ha, htick⟩ := tick_completes s
    cases htick.symm.trans hop
    obtain ⟨b, hb, hab⟩ := drainWords_soundsLike _ h ha
    rw [← h.fifo_eq] at hb
    exact ⟨_, tick_of_drain hb, produceSample_soundsLike hab⟩

/-- Settles O50: both blocks are in operation, so both take the same oldest request, and every port operation keeps
them sounding alike; the result of the operation is a field that states sounding alike share. -/
theorem idleFieldsAreNeverHeard : Obligations.IdleFieldsAreNeverHeard := by
  intro s t hs h
  suffices hstep : ∃ s' t', step s = .next s' ∧ step t = .next t' ∧ s'.SoundsLike t' by
    obtain ⟨s', t', hs', ht', h'⟩ := hstep
    exact ⟨s', t', hs', ht', h', h'.output_eq⟩
  cases hp : s.pending with
  | nil => exact ⟨s, t, step_of_idle hp, step_of_idle (h.pending_eq.trans hp), h⟩
  | cons op rest =>
    obtain ⟨s', hop, hs', -⟩ := step_completes hs hp
    obtain ⟨t', hop', h'⟩ := performLegal_soundsLike (h.setPending rest) hop
    exact ⟨s', t', hs', (step_of_ready (h.ready hs) (h.pending_eq.trans hp)).trans hop', h'⟩

end Sys2Proof.Machine
end

