-- ==== Sys2Proof/Proofs/RepeatedSteps.lean ====
section
/-!
PROOF. Equal step commands one after the other move a register along until its bound, and no further (R162).
-/

namespace Sys2Proof.Machine

/-- A command's own word decodes to it (R71, R73). -/
theorem decode_encode_of_fields {i : Instr} (hw : i.wellFormed = true) (h : Laws.Fields.Statement i) :
    decode (encode i) = .instr i := by
  obtain ⟨hop, hslot, hsub, hnote⟩ := h
  exact decode_of_fields hw hop hslot hsub hnote

/-- When command `i` takes register `reg` one step `g` further, `n` of its words take it `n` steps further. -/
theorem drainWords_replicate {w : CmdWord} {i : Instr} (hd : decode w = .instr i) {reg : State → Nat} {g : Nat → Nat}
    (hfifo : ∀ s ws, reg (s.setFifo ws) = reg s) (hreg : ∀ s t, exec i s = .next t → reg t = g (reg s)) :
    ∀ (n : Nat) (s : State), ∃ t, drainWords (List.replicate n w) s = .next t ∧ reg t = g^[n] (reg s)
  | 0, s => ⟨s, rfl, rfl⟩
  | n + 1, s => by
    obtain ⟨u, hu⟩ := exec_completes i (s.setFifo (List.replicate n w))
    have happly : applyWord w (s.setFifo (List.replicate n w)) = .next u := (applyWord_of_instr hd _).trans hu
    obtain ⟨t, ht, hreg'⟩ := drainWords_replicate hd hfifo hreg n u
    refine ⟨t, ?_, ?_⟩
    · rw [List.replicate_succ, drainWords_cons happly, ht]
    · rw [hreg', hreg _ _ hu, hfifo, Function.iterate_succ_apply]

/-- Steps of `d` upward stop at `hi`. -/
theorem iterate_stepUp (d hi : Nat) : ∀ (n : Nat) {x : Nat}, x ≤ hi →
    (fun y => min (y + d) hi)^[n] x = min (x + d * n) hi
  | 0, x, hx => by simpa using hx
  | n + 1, x, hx => by
    rw [Function.iterate_succ_apply, iterate_stepUp d hi n (Nat.min_le_right ..), Nat.mul_succ]
    omega

/-- Steps of `d` downward stop at `lo`. -/
theorem iterate_stepDown (d lo : Nat) : ∀ (n : Nat) {x : Nat}, lo ≤ x →
    (fun y => max (y - d) lo)^[n] x = max (x - d * n) lo
  | 0, x, hx => by simpa using hx
  | n + 1, x, hx => by
    rw [Function.iterate_succ_apply, iterate_stepDown d lo n (Nat.le_max_right ..), Nat.mul_succ]
    omega

/-- The words of a command that steps `reg` up by `d` to at most `hi` saturate it there. -/
theorem drainWords_stepUp {w : CmdWord} {i : Instr} (hd : decode w = .instr i) {reg : State → Nat} {d hi : Nat}
    (hfifo : ∀ s ws, reg (s.setFifo ws) = reg s)
    (hreg : ∀ s t, exec i s = .next t → reg t = min (reg s + d) hi) (n : Nat) {s : State} (hs : reg s ≤ hi) :
    ∃ t, drainWords (List.replicate n w) s = .next t ∧ reg t = min (reg s + d * n) hi := by
  obtain ⟨t, ht, hn⟩ := drainWords_replicate (g := fun x => min (x + d) hi) hd hfifo hreg n s
  exact ⟨t, ht, hn.trans (iterate_stepUp d hi n hs)⟩

/-- The words of a command that steps `reg` down by `d` to at least `lo` saturate it there. -/
theorem drainWords_stepDown {w : CmdWord} {i : Instr} (hd : decode w = .instr i) {reg : State → Nat} {d lo : Nat}
    (hfifo : ∀ s ws, reg (s.setFifo ws) = reg s)
    (hreg : ∀ s t, exec i s = .next t → reg t = max (reg s - d) lo) (n : Nat) {s : State} (hs : lo ≤ reg s) :
    ∃ t, drainWords (List.replicate n w) s = .next t ∧ reg t = max (reg s - d * n) lo := by
  obtain ⟨t, ht, hn⟩ := drainWords_replicate (g := fun x => max (x - d) lo) hd hfifo hreg n s
  exact ⟨t, ht, hn.trans (iterate_stepDown d lo n hs)⟩

theorem exec_octUp_octave {s t : State} (h : exec .octUp s = .next t) :
    t.octave.toNat = min (s.octave.toNat + 1) 6 := by cases h; exact octUp_toNat _

theorem exec_octDown_octave {s t : State} (h : exec .octDown s = .next t) :
    t.octave.toNat = max (s.octave.toNat - 1) 0 := by cases h; exact (octDown_toNat _).trans (Nat.max_zero _).symm

theorem exec_cutUp_cutoff {s t : State} (h : exec .cutUp s = .next t) :
    t.cutoff.toNat = min (s.cutoff.toNat + 100) 5000 := by cases h; exact cutUp_toNat _

theorem exec_cutDown_cutoff {s t : State} (h : exec .cutDown s = .next t) :
    t.cutoff.toNat = max (s.cutoff.toNat - 100) 100 := by cases h; exact cutDown_toNat _

theorem exec_resUp_resIdx {s t : State} (h : exec .resUp s = .next t) :
    t.resIdx.toNat = min (s.resIdx.toNat + 1) 15 := by cases h; exact resUp_toNat _

theorem exec_resDown_resIdx {s t : State} (h : exec .resDown s = .next t) :
    t.resIdx.toNat = max (s.resIdx.toNat - 1) 0 := by cases h; exact (resDown_toNat _).trans (Nat.max_zero _).symm

/-- Settles O18: each of the six commands steps its register within one bound, and a legal register starts
within it. -/
theorem repeatedStepsSaturate : Obligations.RepeatedStepsSaturate := by
  intro n s ⟨_, octave, ⟨cutoff_min, cutoff_max, _⟩, _⟩
  have octUp := drainWords_stepUp (decode_encode_of_fields rfl Laws.Fields.octUp)
    (fun _ _ => rfl) (fun _ _ => exec_octUp_octave) n octave
  have octDown := drainWords_stepDown (decode_encode_of_fields rfl Laws.Fields.octDown)
    (fun _ _ => rfl) (fun _ _ => exec_octDown_octave) n (Nat.zero_le _) (s := s)
  have cutUp := drainWords_stepUp (decode_encode_of_fields rfl Laws.Fields.cutUp)
    (fun _ _ => rfl) (fun _ _ => exec_cutUp_cutoff) n cutoff_max
  have cutDown := drainWords_stepDown (decode_encode_of_fields rfl Laws.Fields.cutDown)
    (fun _ _ => rfl) (fun _ _ => exec_cutDown_cutoff) n cutoff_min
  have resUp := drainWords_stepUp (decode_encode_of_fields rfl Laws.Fields.resUp)
    (fun _ _ => rfl) (fun _ _ => exec_resUp_resIdx) n (Nat.le_of_lt_succ s.resIdx.isLt)
  have resDown := drainWords_stepDown (decode_encode_of_fields rfl Laws.Fields.resDown)
    (fun _ _ => rfl) (fun _ _ => exec_resDown_resIdx) n (Nat.zero_le _) (s := s)
  simp only [Nat.one_mul, Nat.max_zero] at octUp octDown resUp resDown
  exact ⟨octUp, octDown, cutUp, cutDown, resUp, resDown⟩

end Sys2Proof.Machine
end

