-- ==== Sys2Proof/Proofs/FilterRegisters.lean ====
section
/-!
PROOF. The 32-bit registers `L` and `B` hold what the filter computes (R42, R126, R132).
-/

namespace Sys2Proof.Machine

/-- A sounding slot stores the filter's results when `FILT_EN = 1` (R127). -/
theorem laneVoice_filtered {c : LaneInputs} {v : Voice} (ha : v.active = true) (hf : c.filtEn = true) :
    (laneVoice c v).l = BitVec.ofInt 32 (svf (osc v.p c.wave) v.l.toInt v.b.toInt c.coefs).l ∧
      (laneVoice c v).b = BitVec.ofInt 32 (svf (osc v.p c.wave) v.l.toInt v.b.toInt c.coefs).b := by
  unfold laneVoice filteredVoice
  rw [if_pos ha, if_pos hf]
  exact ⟨rfl, rfl⟩

/-- Settles O36: the filter saturates its results to 32 signed bits, so the registers hold them. -/
theorem filterRegistersHoldEveryResult : Obligations.FilterRegistersHoldEveryResult := by
  intro c v ha hf r
  obtain ⟨hl, hb⟩ := laneVoice_filtered ha hf
  obtain ⟨-, ⟨hl0, hl1⟩, hb0, hb1⟩ := svf_bounds (osc v.p c.wave) v.l.toInt v.b.toInt c.coefs
  rw [hl, hb]
  exact ⟨toInt_ofInt_of_mem hl0 hl1, toInt_ofInt_of_mem hb0 hb1, hl0, hl1, hb0, hb1⟩

end Sys2Proof.Machine
end

