-- ==== Sys2Proof/Proofs/HeldState.lean ====
section
/-!
PROOF. State that only named steps move: the registers and voices under the host's steps, `OVF` (R36) and the
captured pitch of a slot (R30).
-/

namespace Sys2Proof.Machine

/-- A CMD_WRITE writes the FIFO, `OVF` and the port's result only (R180). -/
theorem cmdWrite_eq (w : CmdWord) (s : State) :
    ∃ ws b, cmdWrite w s = ((s.setFifo ws).setOvf b).setOutput .nothing := by
  rcases Nat.lt_or_ge s.fifoCount s.config.cmdFifoDepth with hroom | hfull
  · exact ⟨s.fifo ++ [w], s.ovf, cmdWrite_of_room hroom w⟩
  · exact ⟨s.fifo, true, cmdWrite_of_full hfull w⟩

@[simp] theorem cmdWrite_voices (w : CmdWord) (s : State) : (cmdWrite w s).voices = s.voices := by
  obtain ⟨ws, b, heq⟩ := cmdWrite_eq w s
  rw [heq]; rfl

/-- Settles O51: neither of the host's two operations other than RESET writes a register or a voice. -/
theorem hostStepsLeaveTheSoundAlone : Obligations.HostStepsLeaveTheSoundAlone := by
  intro s op rest hs hp hhost hreset
  rw [step_of_ready hs hp]
  cases op with
  | cmdWrite w =>
    obtain ⟨ws, b, heq⟩ := cmdWrite_eq w (s.setPending rest)
    refine ⟨_, rfl, ?_⟩
    rw [heq]
    exact ⟨rfl, rfl, rfl, rfl, rfl, rfl, fun _ => PortOutput.noConfusion⟩
  | statusRead => exact ⟨_, rfl, rfl, rfl, rfl, rfl, rfl, rfl, fun _ => PortOutput.noConfusion⟩
  | reset => exact absurd rfl hreset
  | tick => cases hhost

/-- What the words of the FIFO change, one of them changes: some word decodes to a command that made the value of
`f` differ. -/
theorem drainWords_changes {α : Type} {f : State → α} (hfifo : ∀ s ws, f (s.setFifo ws) = f s) :
    ∀ {ws : List CmdWord} {s t : State}, drainWords ws s = .next t → f t ≠ f s →
      ∃ w ∈ ws, ∃ i a b, decode w = .instr i ∧ exec i a = .next b ∧ f b ≠ f a
  | [], _, _, h, hne => by cases h; exact absurd rfl hne
  | w :: ws, s, t, h, hne => by
    obtain ⟨u, hu⟩ := applyWord_completes w (s.setFifo ws)
    rw [drainWords_cons hu] at h
    by_cases hut : f t = f u
    · obtain ⟨i, hd, hi⟩ | ⟨-, rfl⟩ := applyWord_cases hu
      · exact ⟨w, List.mem_cons_self, i, _, u, hd, hi, by rwa [hfifo, ← hut]⟩
      · exact absurd (hut.trans (hfifo s ws)) hne
    · obtain ⟨w', hmem, hchange⟩ := drainWords_changes hfifo h hut
      exact ⟨w', List.mem_cons_of_mem w hmem, hchange⟩

/-! ### `OVF` -/

/-- CLR_OVF has one word (R73, R74). -/
theorem eq_of_decode_clrOvf {w : CmdWord} (h : decode w = .instr .clrOvf) : w = 0xB000 := by
  obtain ⟨-, hop, hslot, hsub, hnote⟩ := fields_of_decode h
  apply BitVec.eq_of_toNat_eq
  rw [toNat_eq_fields, hop, hslot, hsub, hnote]
  rfl

/-- Applying words never sets `OVF`. -/
theorem drainWords_keeps_ovf_clear {ws : List CmdWord} {s t : State} (hs : s.ovf = false)
    (h : drainWords ws s = .next t) : t.ovf = false := by
  refine drainWords_induction (P := fun s => s.ovf = false) (fun _ _ hs => hs) ?_ ws s t hs h
  intro w a b ha hw
  obtain ⟨i, -, hi⟩ | ⟨-, rfl⟩ := applyWord_cases hw
  · by_cases hne : b.ovf = a.ovf
    · exact hne.trans ha
    · exact ((exec_writes hi).of_ovf_ne hne).2
  · exact ha

/-- Applying words clears `OVF` only by a CLR_OVF among them. -/
theorem clrOvf_mem_of_drainWords {ws : List CmdWord} {s t : State} (h : drainWords ws s = .next t)
    (hne : t.ovf ≠ s.ovf) : 0xB000 ∈ ws := by
  obtain ⟨w, hmem, i, a, b, hd, hi, hab⟩ := drainWords_changes (f := State.ovf) (fun _ _ => rfl) h hne
  obtain ⟨rfl, -⟩ := (exec_writes hi).of_ovf_ne hab
  exact eq_of_decode_clrOvf hd ▸ hmem

/-- Only a CMD_WRITE to a full FIFO sets `OVF` (R180). -/
theorem performLegal_sets_ovf {op : PortOp} {s t : State} (hs : s.Ready) (h : performLegal op s = .next t)
    (h0 : s.ovf = false) (h1 : t.ovf = true) : ∃ w, op = .cmdWrite w ∧ s.fifo.length = s.config.cmdFifoDepth := by
  cases op with
  | cmdWrite w =>
    cases h
    obtain ⟨-, -, -, -, -, -, hcount⟩ := hs
    refine ⟨w, rfl, hcount.antisymm (Nat.le_of_not_lt fun hroom => ?_)⟩
    rw [cmdWrite_of_room hroom, State.setOutput_ovf, State.setFifo_ovf, h0] at h1
    cases h1
  | statusRead => cases h; cases h0.symm.trans h1
  | reset => cases h; cases h1
  | tick =>
    obtain ⟨u, hu, htick⟩ := tick_completes s
    cases htick.symm.trans h
    cases (drainWords_keeps_ovf_clear h0 hu).symm.trans h1

/-- Only RESET and a TICK that applies a CLR_OVF clear `OVF` (R159, R220). -/
theorem performLegal_clears_ovf {op : PortOp} {s t : State} (h : performLegal op s = .next t)
    (h1 : s.ovf = true) (h0 : t.ovf = false) : op = .reset ∨ (op = .tick ∧ 0xB000 ∈ s.fifo) := by
  cases op with
  | cmdWrite w =>
    cases h
    rcases Nat.lt_or_ge s.fifoCount s.config.cmdFifoDepth with hroom | hfull
    · rw [cmdWrite_of_room hroom, State.setOutput_ovf, State.setFifo_ovf, h1] at h0
      cases h0
    · rw [cmdWrite_of_full hfull] at h0
      cases h0
  | statusRead => cases h; cases h1.symm.trans h0
  | reset => exact .inl rfl
  | tick =>
    obtain ⟨u, hu, htick⟩ := tick_completes s
    cases htick.symm.trans h
    have hu0 : u.ovf = false := h0
    exact .inr ⟨rfl, clrOvf_mem_of_drainWords hu (by rw [hu0, h1]; decide)⟩

/-- Settles O52: a dropped word sets the flag; what sets it and what clears it is read off the port operations. -/
theorem overflowFlagIsSticky : Obligations.OverflowFlagIsSticky := by
  intro s t op rest hs hp h
  rw [step_of_ready hs hp] at h
  refine ⟨?_, performLegal_sets_ovf (s := s.setPending rest) hs h, performLegal_clears_ovf (s := s.setPending rest) h⟩
  rintro hfull w rfl
  have hfull' : (s.setPending rest).config.cmdFifoDepth ≤ (s.setPending rest).fifoCount := hfull.ge
  cases h
  rw [cmdWrite_of_full hfull']
  exact ⟨rfl, rfl⟩

/-! ### The captured pitch -/

/-- The note and the octave slot `i` captured at its note-on (R30); `none` without such a slot. -/
def State.capturedPitch (s : State) (i : Nat) : Option (BitVec 4 × BitVec 3) :=
  s.voices[i]?.map fun v => (v.note, v.voct)

/-- Of the commands only a NOTE_ON to the slot moves its captured pitch: NOTE_OFF writes `ACTIVE` alone (R141). -/
theorem exec_moves_pitch {i : Instr} {s t : State} {k : Nat} (h : exec i s = .next t)
    (hne : t.capturedPitch k ≠ s.capturedPitch k) : ∃ slot note, i = .noteOn slot note ∧ slot.toNat = k := by
  have hslot : t.voices[k]? ≠ s.voices[k]? := fun heq => hne (by unfold State.capturedPitch; rw [heq])
  obtain hon | ⟨slot, rfl, -⟩ := (exec_writes h).of_slot_ne hslot
  · exact hon
  · cases h
    refine absurd ?_ hne
    unfold State.capturedPitch
    rw [onSlot_getElem?]
    split
    · rw [Option.map_map]; rfl
    · rfl

/-- Producing a sample moves no captured pitch (R30). -/
theorem produceSample_capturedPitch (s : State) (k : Nat) :
    (produceSample s).capturedPitch k = s.capturedPitch k := by
  unfold State.capturedPitch
  rw [produceSample_getElem?, Option.map_map]
  congr 1
  funext v
  obtain ⟨-, hnote, hvoct⟩ := laneVoice_fields (laneInputs s) v
  exact Prod.ext hnote hvoct

/-- Only RESET and a TICK that applies a NOTE_ON to the slot move its captured pitch (R30). -/
theorem performLegal_moves_pitch {op : PortOp} {s t : State} {k : Nat} (h : performLegal op s = .next t)
    (hne : t.capturedPitch k ≠ s.capturedPitch k) :
    op = .reset ∨ (op = .tick ∧
      ∃ w ∈ s.fifo, ∃ slot note, decode w = .instr (.noteOn slot note) ∧ slot.toNat = k) := by
  cases op with
  | cmdWrite w =>
    cases h
    exact absurd (by unfold State.capturedPitch; rw [cmdWrite_voices]) hne
  | statusRead => cases h; exact absurd rfl hne
  | reset => exact .inl rfl
  | tick =>
    obtain ⟨u, hu, htick⟩ := tick_completes s
    cases htick.symm.trans h
    rw [produceSample_capturedPitch] at hne
    obtain ⟨w, hmem, i, a, b, hd, hi, hab⟩ :=
      drainWords_changes (f := fun s => s.capturedPitch k) (fun _ _ => rfl) hu hne
    obtain ⟨slot, note, rfl, hk⟩ := exec_moves_pitch hi hab
    exact .inr ⟨rfl, w, hmem, slot, note, hd, hk⟩

/-- Settles O53: the step is the oldest request, and the slot's note and octave are its captured pitch. -/
theorem capturedPitchNeverMoves : Obligations.CapturedPitchNeverMoves := by
  intro s t op rest i v u hs hp h hv hu hne
  rw [step_of_ready hs hp] at h
  refine performLegal_moves_pitch (s := s.setPending rest) h fun heq => ?_
  have hv' : (s.setPending rest).voices[i]? = some v := hv
  unfold State.capturedPitch at heq
  rw [hu, hv'] at heq
  obtain ⟨hnote, hvoct⟩ := Prod.mk.inj (Option.some.inj heq)
  exact hne.elim (absurd hnote) (absurd hvoct)

end Sys2Proof.Machine
end

