-- ==== Sys2Proof/Proofs/RequestOrder.lean ====
section
/-!
PROOF. The requests of a block in operation are taken one by one (R54, R62, R200), and the words the host writes
reach the next TICK in their order (R59, R60).
-/

namespace Sys2Proof.Machine

/-- Settles O47: a block without a request stays as it is; any other completes its oldest request. -/
theorem everyRequestIsTaken : Obligations.EveryRequestIsTaken := by
  intro s hs
  cases hp : s.pending with
  | nil => exact ⟨s, step_of_idle hp, hp⟩
  | cons op rest =>
    obtain ⟨t, -, hstep, -, pending, -⟩ := step_completes hs hp
    exact ⟨t, hstep, pending⟩

/-- A TICK overwrites the last result, so that its value before has no effect (R51, R181). -/
theorem tick_setOutput (s : State) (out : PortOutput) : tick (s.setOutput out) = tick s := by
  obtain ⟨u, hu, htick⟩ := tick_completes s
  have hu' : drainWords s.fifo (s.setOutput out) = .next (u.setOutput out) :=
    drainWords_passive (passive_setOutput out) (fun _ _ => rfl) _ _ _ hu
  rw [htick, tick_of_drain (s := s.setOutput out) hu']
  rfl

/-- A TICK applies the newest word after all the words before it (R59, R161). -/
theorem tick_fifoPush {s u v : State} {w : CmdWord} (hu : drainWords s.fifo s = .next u)
    (hv : applyWord w u = .next v) : tick (s.fifoPush w) = .next (produceSample v) := by
  have hempty : u.fifo = [] := (drainWords_frame _ _ _ rfl hu).fifo
  have hv' : applyWord w (u.setFifo []) = .next v := by rw [← hempty]; exact hv
  obtain ⟨y, hy⟩ := drainWords_setFifo _ _ _ (s.fifo ++ [w]) hu
  obtain ⟨z, hz⟩ := drainWords_append _ [w] _ _ hy
  exact tick_of_drain (hz.trans (drainWords_cons hv'))

/-- A run of a block in operation begins with its oldest request. -/
theorem run_of_ready {s t : State} {op : PortOp} {rest : List PortOp} (hs : s.Ready) (hp : s.pending = op :: rest)
    (h : performLegal op (s.setPending rest) = .next t) (k : Nat) :
    Host.Core.run core (k + 1) s = Host.Core.run core k t :=
  run_succ ((step_of_ready hs hp).trans h) k

/-- A CMD_WRITE and the TICK behind it, in two steps of a block in operation. -/
theorem run_cmdWrite_tick {s t : State} {w : CmdWord} {rest : List PortOp} (hs : s.Ready)
    (hp : s.pending = .cmdWrite w :: .tick :: rest) (h : tick (cmdWrite w (s.setPending rest)) = .next t) :
    Host.Core.run core 2 s = .next t := by
  obtain ⟨a, ha, hstep, ready, pending, -⟩ := step_completes hs hp
  have hrest : performLegal (.cmdWrite w) (s.setPending rest) = .next (a.setPending rest) :=
    performLegal_setPending (s := s.setPending (.tick :: rest)) rest ha
  rw [Host.Outcome.next.inj hrest] at h
  rw [run_succ hstep]
  exact run_of_ready ready pending h 0

/-- Settles O21: a word is pushed behind the others or, at a full FIFO, dropped before the TICK looks at it; a RESET
leaves an empty FIFO and a silent block. -/
theorem acceptedWordsAreAppliedInOrder : Obligations.AcceptedWordsAreAppliedInOrder := by
  refine ⟨fun s w rest hs hroom hp => ?_, fun s w rest hs hfull hp => ?_, fun s w rest hs hp => ?_⟩
  · obtain ⟨u, hu, -⟩ := tick_completes (s.setPending rest)
    obtain ⟨v, hv⟩ := applyWord_completes w u
    refine ⟨u, v, hu, hv, run_cmdWrite_tick hs hp ?_⟩
    rw [cmdWrite_of_room (s := s.setPending rest) hroom, tick_setOutput]
    exact tick_fifoPush hu hv
  · obtain ⟨u, hu, htick⟩ := tick_completes ((raiseOvf s).setPending rest)
    refine ⟨u, hu, run_cmdWrite_tick hs hp ?_⟩
    rw [cmdWrite_of_full (s := s.setPending rest) hfull, tick_setOutput]
    exact htick
  · obtain ⟨a, -, hwrite, aready, apending, aconfig⟩ := step_completes hs hp
    obtain ⟨b, hb, hreset, bready, bpending, -⟩ := step_completes aready apending
    cases hb
    rw [run_succ hwrite, run_succ hreset, ← aconfig]
    refine run_of_ready bready bpending ?_ 0
    exact congrArg _ (produceSample_of_silent (s := (State.resetValues a.config).setPending rest)
      (resetValues_silent a.config))

end Sys2Proof.Machine
end

