-- ==== Sys2Proof/Proofs/Relabel.lean ====
section
/-!
PROOF. The byte order of a transport and the deadline of a TICK are labels: replacing them commutes with every port
operation (R52, R226, R229).
-/

namespace Sys2Proof.Machine

/-- The outcome of a step with the two labels of its next state replaced; a step that stops leaves none. -/
def relabelOutcome (o : Option ByteOrder) (d : Duration) :
    Host.Outcome State Fault Refusal → Host.Outcome State Fault Refusal
  | .next t => .next (t.relabel o d)
  | .fault r => .fault r
  | .refused r => .refused r

section relabel
variable (o : Option ByteOrder) (d : Duration)

/-- Of the parameters a lane reads the sample rate only, to find its tuning word (R33). -/
theorem produceSample_relabel (s : State) : produceSample (s.relabel o d) = (produceSample s).relabel o d := rfl

theorem tick_relabel (s : State) : tick (s.relabel o d) = relabelOutcome o d (tick s) := by
  obtain ⟨u, hu, htick⟩ := tick_completes s
  have hu' : drainWords s.fifo (s.relabel o d) = .next (u.relabel o d) :=
    drainWords_passive (passive_relabel o d) (fun _ _ => rfl) _ _ _ hu
  rw [htick, tick_of_drain (s := s.relabel o d) hu', produceSample_relabel]
  rfl

/-- Of the parameters a CMD_WRITE reads the capacity of the FIFO only (R180). -/
theorem cmdWrite_relabel (w : CmdWord) (s : State) : cmdWrite w (s.relabel o d) = (cmdWrite w s).relabel o d := by
  rcases Nat.lt_or_ge s.fifoCount s.config.cmdFifoDepth with hroom | hfull
  · rw [cmdWrite_of_room hroom, cmdWrite_of_room (s := s.relabel o d) hroom]; rfl
  · rw [cmdWrite_of_full hfull, cmdWrite_of_full (s := s.relabel o d) hfull]; rfl

theorem performLegal_relabel (op : PortOp) (s : State) :
    performLegal op (s.relabel o d) = relabelOutcome o d (performLegal op s) := by
  cases op with
  | cmdWrite w => exact congrArg _ (cmdWrite_relabel o d w s)
  | tick => exact tick_relabel o d s
  | statusRead | reset => rfl

theorem performPowerOn_relabel (op : PortOp) (s : State) :
    performPowerOn op (s.relabel o d) = relabelOutcome o d (performPowerOn op s) := by
  cases op <;> rfl

/-- The refusals look at no label: every one is legal (R5), so the same states are refused. -/
theorem perform_relabel (op : PortOp) (s : State) :
    perform op (s.relabel o d) = relabelOutcome o d (perform op s) := by
  have hdone : (s.relabel o d).resetDone = s.resetDone := rfl
  have hlegal : (s.relabel o d).Legal ↔ s.Legal := .rfl
  have hconfig : (s.relabel o d).config.Legal ↔ s.config.Legal := .rfl
  unfold perform
  simp only [hdone, hlegal, hconfig, performLegal_relabel, performPowerOn_relabel]
  split <;> split <;> rfl

theorem step_relabel (s : State) : step (s.relabel o d) = relabelOutcome o d (step s) := by
  have hpending : (s.relabel o d).pending = s.pending := rfl
  unfold step takeStep
  rw [hpending]
  cases s.pending with
  | nil => rfl
  | cons op rest => exact perform_relabel o d op (s.setPending rest)

end relabel

/-- Settles O49: the labels of the next state are all that replacing them changes of a step's outcome. -/
theorem byteOrderAndDeadlineDoNotMatter : Obligations.ByteOrderAndDeadlineDoNotMatter := by
  intro s o d
  refine ⟨fun t h => ?_, fun r h => ?_⟩ <;> rw [step_relabel, h] <;> rfl

end Sys2Proof.Machine
end

