-- ==== Sys2Proof/Proofs/DecodeEncode.lean ====
section
/-!
PROOF. Decoding and encoding undo each other (R71, R73, R74): the four fields of a word are the word, and a
command's word carries the command's fields.
-/

namespace Sys2Proof.Machine

/-- Two command words with the same four fields of R70 are the same word. -/
theorem cmdWord_ext {w v : CmdWord} (hop : field w 15 12 = field v 15 12) (hslot : field w 11 8 = field v 11 8)
    (hsub : field w 7 4 = field v 7 4) (hnote : field w 3 0 = field v 3 0) : w = v := by
  apply BitVec.eq_of_toNat_eq
  rw [toNat_eq_fields w, toNat_eq_fields v, hop, hslot, hsub, hnote]

/-- The word of every term carries its `OP` and its operands, whether the term is well formed or not. -/
theorem encode_fields (i : Instr) : Laws.Fields.Statement i := by
  cases i with
  | nop => exact Laws.Fields.nop
  | noteOn slot note => exact Laws.Fields.noteOn slot note
  | noteOff slot => exact Laws.Fields.noteOff slot
  | octUp => exact Laws.Fields.octUp
  | octDown => exact Laws.Fields.octDown
  | waveCycle => exact Laws.Fields.waveCycle
  | filtToggle => exact Laws.Fields.filtToggle
  | cutUp => exact Laws.Fields.cutUp
  | cutDown => exact Laws.Fields.cutDown
  | resUp => exact Laws.Fields.resUp
  | resDown => exact Laws.Fields.resDown
  | clrOvf => exact Laws.Fields.clrOvf

theorem decode_encode {i : Instr} (hw : i.wellFormed = true) : decode (encode i) = .instr i :=
  decode_encode_of_fields hw (encode_fields i)

/-- Settles O2: the word of a command carries the command's fields, and the decoder reads only fields. -/
theorem decodeOfEncodeIsTheCommand : Obligations.DecodeOfEncodeIsTheCommand := fun _ => decode_encode

theorem encode_of_decode {w : CmdWord} {i : Instr} (h : decode w = .instr i) : encode i = w := by
  obtain ⟨-, hop, hslot, hsub, hnote⟩ := fields_of_decode h
  obtain ⟨hop', hslot', hsub', hnote'⟩ := encode_fields i
  exact cmdWord_ext (hop'.trans hop.symm) (hslot'.trans hslot.symm) (hsub'.trans hsub.symm)
    (hnote'.trans hnote.symm)

/-- Settles O3: the word and the command's own word have the same four fields. -/
theorem encodeOfDecodeIsTheWord : Obligations.EncodeOfDecodeIsTheWord :=
  fun _ _ h => ⟨encode_of_decode h, (fields_of_decode h).1⟩

/-- A well-formed command has exactly one word. -/
theorem decode_eq_instr_iff_encode {w : CmdWord} {i : Instr} (hw : i.wellFormed = true) :
    decode w = .instr i ↔ encode i = w :=
  ⟨encode_of_decode, fun h => h ▸ decode_encode hw⟩

end Sys2Proof.Machine
end

