-- ==== Sys2Proof/Proofs/ReservedWords.lean ====
section
/-!
PROOF. The RESERVED words are those of R75: a word outside its list carries the fields of some command.
-/

namespace Sys2Proof.Machine

/-- The words R75 lists as RESERVED, by their fields. -/
def ReservedFields (w : CmdWord) : Prop :=
  12 ≤ field w 15 12 ∨ field w 7 4 ≠ 0 ∨ (field w 11 8 ≠ 0 ∧ field w 15 12 ≠ 1 ∧ field w 15 12 ≠ 2) ∨
    (field w 3 0 ≠ 0 ∧ field w 15 12 ≠ 1) ∨ (field w 15 12 = 1 ∧ 12 ≤ field w 3 0)

/-- A command's fields are none of those R75 lists. -/
theorem not_reservedFields_of_decode {w : CmdWord} {i : Instr} (h : decode w = .instr i) : ¬ ReservedFields w := by
  obtain ⟨hw, hop, hslot, hsub, hnote⟩ := fields_of_decode h
  unfold ReservedFields
  rw [hop, hslot, hsub, hnote]
  cases i with
  | noteOn slot note =>
    have hle : note.toNat ≤ 11 := of_decide_eq_true hw
    simp only [Laws.Fields.opOf, Laws.Fields.slotOf, Laws.Fields.noteOf]
    omega
  | _ => simp [Laws.Fields.opOf, Laws.Fields.slotOf, Laws.Fields.noteOf]

/-- The opcode map has a command for every `OP` up to 0xB; the ten but NOTE_ON and NOTE_OFF take no operand (R73). -/
theorem exists_command_without_operands : ∀ op : Nat, op ≤ 11 → op ≠ 1 → op ≠ 2 → ∃ i : Instr,
    i.wellFormed = true ∧ Laws.Fields.opOf i = op ∧ Laws.Fields.slotOf i = 0 ∧ Laws.Fields.noteOf i = 0
  | 0, _, _, _ => ⟨.nop, rfl, rfl, rfl, rfl⟩
  | 3, _, _, _ => ⟨.octUp, rfl, rfl, rfl, rfl⟩
  | 4, _, _, _ => ⟨.octDown, rfl, rfl, rfl, rfl⟩
  | 5, _, _, _ => ⟨.waveCycle, rfl, rfl, rfl, rfl⟩
  | 6, _, _, _ => ⟨.filtToggle, rfl, rfl, rfl, rfl⟩
  | 7, _, _, _ => ⟨.cutUp, rfl, rfl, rfl, rfl⟩
  | 8, _, _, _ => ⟨.cutDown, rfl, rfl, rfl, rfl⟩
  | 9, _, _, _ => ⟨.resUp, rfl, rfl, rfl, rfl⟩
  | 10, _, _, _ => ⟨.resDown, rfl, rfl, rfl, rfl⟩
  | 11, _, _, _ => ⟨.clrOvf, rfl, rfl, rfl, rfl⟩

/-- The operand read from a four-bit field is the field (R72). -/
theorem toNat_ofNat_field {w : CmdWord} {hi lo : Nat} (h : hi - lo = 3) :
    (BitVec.ofNat 4 (field w hi lo)).toNat = field w hi lo :=
  Nat.mod_eq_of_lt (by simpa only [h] using field_lt w hi lo)

/-- A word with the `OP`, `SUB` and a pitch class of NOTE_ON is a NOTE_ON of its two operands (R73). -/
theorem decode_noteOn_of_fields {w : CmdWord} (hop : field w 15 12 = 1) (hsub : field w 7 4 = 0)
    (hle : field w 3 0 ≤ 11) :
    decode w = .instr (.noteOn (BitVec.ofNat 4 (field w 11 8)) (BitVec.ofNat 4 (field w 3 0))) := by
  have hslot : (BitVec.ofNat 4 (field w 11 8)).toNat = field w 11 8 := toNat_ofNat_field rfl
  have hnote : (BitVec.ofNat 4 (field w 3 0)).toNat = field w 3 0 := toNat_ofNat_field rfl
  exact decode_of_fields (decide_eq_true (hnote.le.trans hle)) hop hslot.symm hsub hnote.symm

/-- A word with the `OP`, `SUB` and `NOTE` of NOTE_OFF is a NOTE_OFF of its operand (R73). -/
theorem decode_noteOff_of_fields {w : CmdWord} (hop : field w 15 12 = 2) (hsub : field w 7 4 = 0)
    (hnote : field w 3 0 = 0) : decode w = .instr (.noteOff (BitVec.ofNat 4 (field w 11 8))) := by
  have hslot : (BitVec.ofNat 4 (field w 11 8)).toNat = field w 11 8 := toNat_ofNat_field rfl
  exact decode_of_fields rfl hop hslot.symm hsub hnote

/-- A word R75 does not list carries the fields of a command: of NOTE_ON, of NOTE_OFF, or of one without operands. -/
theorem exists_decode_of_not_reservedFields {w : CmdWord} (h : ¬ ReservedFields w) : ∃ i, decode w = .instr i := by
  unfold ReservedFields at h
  have hsub : field w 7 4 = 0 := by omega
  by_cases hop1 : field w 15 12 = 1
  · exact ⟨_, decode_noteOn_of_fields hop1 hsub (by omega)⟩
  · have hnote : field w 3 0 = 0 := by omega
    by_cases hop2 : field w 15 12 = 2
    · exact ⟨_, decode_noteOff_of_fields hop2 hsub hnote⟩
    · have hslot : field w 11 8 = 0 := by omega
      obtain ⟨i, hw, hop, hslot', hnote'⟩ := exists_command_without_operands (field w 15 12) (by omega) hop1 hop2
      exact ⟨i, decode_of_fields hw hop.symm (hslot.trans hslot'.symm) hsub (hnote.trans hnote'.symm)⟩

theorem decode_eq_reserved_iff (w : CmdWord) : decode w = .reserved w ↔ ReservedFields w := by
  constructor
  · intro h
    by_contra hn
    obtain ⟨i, hi⟩ := exists_decode_of_not_reservedFields hn
    cases hi.symm.trans h
  · intro h
    obtain ⟨i, hi⟩ | hr := decode_cases w
    · exact absurd h (not_reservedFields_of_decode hi)
    · exact hr

/-- RESERVED carries the word itself (R74). -/
theorem eq_of_decode_reserved {w w' : CmdWord} (h : decode w = .reserved w') : w' = w := by
  obtain ⟨i, hi⟩ | hr := decode_cases w
  · cases hi.symm.trans h
  · cases hr.symm.trans h; rfl

/-- Settles O4: R75's list is what no command's fields meet; the FIFO takes the word without looking at it. -/
theorem reservedWordsAreExactlyTheRest : Obligations.ReservedWordsAreExactlyTheRest := by
  refine ⟨decode_eq_reserved_iff, fun _ _ => eq_of_decode_reserved, fun w s h => ?_⟩
  refine ⟨applyWord_of_reserved h s, fun hroom => ?_⟩
  rw [cmdWrite_of_room hroom]
  rfl

/-- Settles O10: note 12..15 under `OP` 1 is in R75's list, and the term's own arm changes nothing. -/
theorem illFormedNoteOnActsAsItsReservedWord : Obligations.IllFormedNoteOnActsAsItsReservedWord := by
  intro s slot note hnote
  obtain ⟨hop, -, -, hfield⟩ := Laws.Fields.noteOn slot note
  have hge : 12 ≤ field (encode (.noteOn slot note)) 3 0 := hfield ▸ hnote
  have hreserved : decode (encode (.noteOn slot note)) = .reserved (encode (.noteOn slot note)) :=
    (decode_eq_reserved_iff _).2 (.inr (.inr (.inr (.inr ⟨hop, hge⟩))))
  have habsent : notePresent note = false := decide_eq_false (Nat.not_le.2 hnote)
  exact ⟨hreserved, exec_noteOn_of_absent habsent slot s, applyWord_of_reserved hreserved s⟩

/-- Settles O1: the thirteen command words are `encode` of their commands; each RESERVED word has one field that R75
refuses. -/
theorem decodesWordsOfTheMap : Obligations.DecodesWordsOfTheMap :=
  ⟨decode_encode (i := .nop) rfl, decode_encode (i := .noteOn 0 9) rfl, decode_encode (i := .noteOn 15 11) rfl,
    decode_encode (i := .noteOff 15) rfl, decode_encode (i := .octUp) rfl, decode_encode (i := .octDown) rfl,
    decode_encode (i := .waveCycle) rfl, decode_encode (i := .filtToggle) rfl, decode_encode (i := .cutUp) rfl,
    decode_encode (i := .cutDown) rfl, decode_encode (i := .resUp) rfl, decode_encode (i := .resDown) rfl,
    decode_encode (i := .clrOvf) rfl,
    (decode_eq_reserved_iff 0x100C).2 (.inr (.inr (.inr (.inr (by decide))))),
    (decode_eq_reserved_iff 0x1010).2 (.inr (.inl (by decide))),
    (decode_eq_reserved_iff 0x2001).2 (.inr (.inr (.inr (.inl (by decide))))),
    (decode_eq_reserved_iff 0x3001).2 (.inr (.inr (.inr (.inl (by decide))))),
    (decode_eq_reserved_iff 0xC000).2 (.inl (by decide))⟩

end Sys2Proof.Machine
end

