-- ==== Sys2Proof/Proofs/OpcodeMap.lean ====
section
/-!
PROOF. The rows of the opcode map as `match` and `mask` (R73): a mask of whole fields compares those fields.
-/

namespace Sys2Proof.Machine

/-- Masking a word masks its fields. -/
theorem field_and {n : Nat} (w m : BitVec n) (hi lo : Nat) :
    field (w &&& m) hi lo = field w hi lo &&& field m hi lo := by
  simp only [field, BitVec.toNat_and, Nat.and_div_two_pow, Nat.and_mod_two_pow]

/-- A four-bit field under the mask 0xF is the field. -/
theorem field_and_full {w : CmdWord} {hi lo : Nat} (h : hi - lo = 3) : field w hi lo &&& 15 = field w hi lo := by
  have hlt : field w hi lo < 2 ^ 4 := by simpa only [h] using field_lt w hi lo
  exact Nat.and_two_pow_sub_one_of_lt_two_pow hlt

/-- A word matches under a mask when its four masked fields are those of the match. -/
theorem and_eq_iff_fields (w m v : CmdWord) : w &&& m = v ↔
    field w 15 12 &&& field m 15 12 = field v 15 12 ∧ field w 11 8 &&& field m 11 8 = field v 11 8 ∧
      field w 7 4 &&& field m 7 4 = field v 7 4 ∧ field w 3 0 &&& field m 3 0 = field v 3 0 := by
  simp only [← field_and]
  constructor
  · rintro rfl; exact ⟨rfl, rfl, rfl, rfl⟩
  · rintro ⟨hop, hslot, hsub, hnote⟩; exact cmdWord_ext hop hslot hsub hnote

/-- The mask of NOTE_ON compares `OP` and `SUB`. -/
theorem match_noteOn_iff (w : CmdWord) : w &&& 0xF0F0 = 0x1000 ↔ field w 15 12 = 1 ∧ field w 7 4 = 0 := by
  rw [and_eq_iff_fields]
  show field w 15 12 &&& 15 = 1 ∧ field w 11 8 &&& 0 = 0 ∧ field w 7 4 &&& 15 = 0 ∧ field w 3 0 &&& 0 = 0 ↔ _
  simp [field_and_full]

/-- The mask of NOTE_OFF compares `OP`, `SUB` and `NOTE`. -/
theorem match_noteOff_iff (w : CmdWord) :
    w &&& 0xF0FF = 0x2000 ↔ field w 15 12 = 2 ∧ field w 7 4 = 0 ∧ field w 3 0 = 0 := by
  rw [and_eq_iff_fields]
  show field w 15 12 &&& 15 = 2 ∧ field w 11 8 &&& 0 = 0 ∧ field w 7 4 &&& 15 = 0 ∧ field w 3 0 &&& 15 = 0 ↔ _
  simp [field_and_full]

/-- A command without operands has a full mask, under which only its own word matches. -/
theorem decode_iff_full_mask {i : Instr} {v : CmdWord} (hw : i.wellFormed = true) (hv : encode i = v) (w : CmdWord) :
    decode w = .instr i ↔ w &&& 0xFFFF = v := by
  have hfull : w &&& 0xFFFF = w := BitVec.and_allOnes
  rw [decode_eq_instr_iff_encode hw, hv, hfull]
  exact eq_comm

/-- The row of NOTE_ON, whose extra condition is a pitch class (R73). -/
theorem decode_noteOn_iff (w : CmdWord) :
    (∃ slot note, decode w = .instr (.noteOn slot note)) ↔ w &&& 0xF0F0 = 0x1000 ∧ field w 3 0 ≤ 11 := by
  rw [match_noteOn_iff]
  constructor
  · rintro ⟨slot, note, h⟩
    obtain ⟨hw, hop, -, hsub, hnote⟩ := fields_of_decode h
    exact ⟨⟨hop, hsub⟩, hnote ▸ of_decide_eq_true hw⟩
  · rintro ⟨⟨hop, hsub⟩, hle⟩
    exact ⟨_, _, decode_noteOn_of_fields hop hsub hle⟩

/-- The row of NOTE_OFF (R73). -/
theorem decode_noteOff_iff (w : CmdWord) :
    (∃ slot, decode w = .instr (.noteOff slot)) ↔ w &&& 0xF0FF = 0x2000 := by
  rw [match_noteOff_iff]
  constructor
  · rintro ⟨slot, h⟩
    obtain ⟨-, hop, -, hsub, hnote⟩ := fields_of_decode h
    exact ⟨hop, hsub, hnote⟩
  · rintro ⟨hop, hsub, hnote⟩
    exact ⟨_, decode_noteOff_of_fields hop hsub hnote⟩

/-- A slot operand that names no slot changes nothing (R144). -/
theorem onSlot_of_absent {slot : BitVec 4} {s : State} (h : s.config.numVoices ≤ slot.toNat) (f : Voice → Voice) :
    onSlot slot f s = s := by
  have habsent : slotPresent s slot = false := decide_eq_false (Nat.not_lt.2 h)
  unfold onSlot
  rw [habsent]
  rfl

theorem exec_noteOn_of_absent_slot {slot : BitVec 4} {s : State} (h : s.config.numVoices ≤ slot.toNat)
    (note : BitVec 4) : exec (.noteOn slot note) s = .next s := by
  cases hn : notePresent note with
  | true => rw [exec_noteOn_of_present hn, onSlot_of_absent h]
  | false => exact exec_noteOn_of_absent hn slot s

theorem exec_noteOff_of_absent_slot {slot : BitVec 4} {s : State} (h : s.config.numVoices ≤ slot.toNat) :
    exec (.noteOff slot) s = .next s :=
  congrArg _ (onSlot_of_absent h _)

/-- Settles O5: ten rows compare the whole word, the other two the fields that are no operand. -/
theorem opcodeMapMatchAndMask : Obligations.OpcodeMapMatchAndMask := by
  refine ⟨fun w => ?_, fun s slot note h => ⟨exec_noteOn_of_absent_slot h note, exec_noteOff_of_absent_slot h⟩⟩
  exact ⟨decode_iff_full_mask rfl rfl w, decode_noteOn_iff w, decode_noteOff_iff w, decode_iff_full_mask rfl rfl w,
    decode_iff_full_mask rfl rfl w, decode_iff_full_mask rfl rfl w, decode_iff_full_mask rfl rfl w,
    decode_iff_full_mask rfl rfl w, decode_iff_full_mask rfl rfl w, decode_iff_full_mask rfl rfl w,
    decode_iff_full_mask rfl rfl w, decode_iff_full_mask rfl rfl w⟩

end Sys2Proof.Machine
end

