-- ==== Sys2Proof/Proofs/Programs.lean ====
section
/-!
PROOF. Runs of port operations: taken in order they are the steps of the block (R80), a TICK returns one sample
(R181), and a block of n TICKs n samples (R187). The pseudo-operations of programs (R81).
-/

namespace Sys2Proof.Machine

/-- A port operation of a block in operation is not refused. -/
theorem perform_of_ready {s : State} (hs : s.Ready) (op : PortOp) : perform op s = performLegal op s := by
  obtain ⟨hdone, hlegal⟩ := hs
  unfold perform
  rw [if_pos hdone, if_pos hlegal]

theorem runOps_cons {op : PortOp} {ops : List PortOp} {s u t : State} {out : List PortOutput}
    (hu : perform op s = .next u) (ht : runOps ops u = some (out, t)) :
    runOps (op :: ops) s = some (u.output.traced ++ out, t) := by
  simp only [runOps, hu, ht]

/-- The trace of a run is what its first operation returns and then the trace of the others (R80). -/
theorem runOps_cons_cases {op : PortOp} {ops : List PortOp} {s t : State} {out : List PortOutput}
    (h : runOps (op :: ops) s = some (out, t)) : ∃ (u : State) (out' : List PortOutput),
      perform op s = .next u ∧ runOps ops u = some (out', t) ∧ out = u.output.traced ++ out' := by
  unfold runOps at h
  split at h
  next u hu =>
    split at h
    next out' t' hrun => cases h; exact ⟨u, out', hu, hrun, rfl⟩
    next => cases h
  next => cases h
  next => cases h

theorem setPending_of_eq {s : State} {ops : List PortOp} (h : s.pending = ops) : s.setPending ops = s := by
  cases h; rfl

/-- From a block in operation the requests `ops` complete, taken as a program or as steps, with one final state. -/
theorem runOps_completes {rest : List PortOp} : ∀ (ops : List PortOp) {s : State}, s.Ready →
    s.pending = ops ++ rest → ∃ (out : List PortOutput) (t : State),
      runOps ops (s.setPending rest) = some (out, t) ∧ Host.Core.run core ops.length s = .next t
  | [], s, _, hp => ⟨[], s, congrArg (fun t => some ([], t)) (setPending_of_eq hp), rfl⟩
  | op :: ops, s, hs, hp => by
    obtain ⟨u, hperf, hstep, ready, pending, -⟩ := step_completes hs hp
    obtain ⟨out, t, hrun, hsteps⟩ := runOps_completes ops ready pending
    have hu : perform op (s.setPending rest) = .next (u.setPending rest) :=
      
      (perform_of_ready (s := s.setPending rest) hs op).trans
        (performLegal_setPending (s := s.setPending (ops ++ rest)) rest hperf)
    exact ⟨_, t, runOps_cons hu hrun, (run_succ hstep _).trans hsteps⟩

/-- A TICK that completes returns one sample (R181). -/
theorem perform_tick_output {s t : State} (h : perform .tick s = .next t) : ∃ x, t.output = .sample x := by
  obtain ⟨-, hlegal⟩ | ⟨-, -, hreset, -⟩ := perform_cases h
  · obtain ⟨u, -, htick⟩ := tick_completes s
    cases htick.symm.trans hlegal
    exact ⟨_, rfl⟩
  · cases hreset

/-- The trace of `n` TICKs is `n` samples (R187). -/
theorem trace_of_ticks : ∀ (n : Nat) {s t : State} {out : List PortOutput}, produceBlock n s = some (out, t) →
    out.length = n ∧ ∀ o ∈ out, ∃ x, o = .sample x
  | 0, _, _, _, h => by cases h; exact ⟨rfl, fun _ ho => by cases ho⟩
  | n + 1, s, t, out, h => by
    obtain ⟨u, out', htick, hrun, rfl⟩ := runOps_cons_cases h
    obtain ⟨x, hx⟩ := perform_tick_output htick
    obtain ⟨hlen, hsamples⟩ := trace_of_ticks n hrun
    rw [hx]
    exact ⟨congrArg (· + 1) hlen, List.forall_mem_cons.2 ⟨⟨x, rfl⟩, hsamples⟩⟩

/-- Settles O27: the TICKs complete as a program and as steps, and each returns one sample. -/
theorem blocksHaveOneSamplePerTick : Obligations.BlocksHaveOneSamplePerTick := by
  intro n s rest hs hp
  obtain ⟨out, t, hblock, hsteps⟩ := runOps_completes (List.replicate n .tick) hs hp
  rw [List.length_replicate] at hsteps
  exact ⟨out, t, hblock, hsteps, trace_of_ticks n hblock⟩

/-- Settles O55: each clause is the expansion's own equation; a REPEAT takes its first copy from the front. -/
theorem pseudoOperationsExpand : Obligations.PseudoOperationsExpand :=
  ⟨fun _ _ => rfl, fun _ => rfl, fun _ _ => rfl, fun _ _ _ => rfl, fun _ _ => rfl⟩

end Sys2Proof.Machine
end

