-- ==== Sys2Proof/Proofs/TuningWords.lean ====
section
/-!
PROOF. The tuning words against the real reference (R90, R91, R93): the integer twelfth root of the twelfth power's
integer part is the integer part itself, so a word is the real ratio rounded to nearest. The listing of R94.
-/

namespace Sys2Proof.Machine

/-- `freq_ref(n, o)`, the equal-tempered frequency of a pitch with A4 at 440 Hz (R90). -/
noncomputable def freqRef (o n : Nat) : ℝ := 440 * (2 : ℝ) ^ (((o : ℝ) - 4) + ((n : ℝ) - 9) / 12)

/-- `freq_ref(n, o) * 2^32 / FS`, the phase step that a tuning word rounds (R91, R93). -/
noncomputable def phaseStep (fs o n : Nat) : ℝ := freqRef o n * 2 ^ 32 / fs

theorem phaseStep_nonneg (fs o n : Nat) : 0 ≤ phaseStep fs o n := by
  unfold phaseStep freqRef
  positivity

/-- Twelve semitones make an octave, and A4 is note 57 from C0. -/
theorem freqRef_pow_twelve (o n : Nat) : freqRef o n ^ 12 = 440 ^ 12 * 2 ^ (12 * o + n) / 2 ^ 57 := by
  have hexp : (((o : ℝ) - 4) + ((n : ℝ) - 9) / 12) * (12 : ℕ) = ((12 * o + n : ℕ) : ℝ) - (57 : ℕ) := by
    push_cast
    ring
  unfold freqRef
  rw [mul_pow, ← Real.rpow_mul_natCast two_pos.le, hexp, Real.rpow_sub two_pos, Real.rpow_natCast,
    Real.rpow_natCast, mul_div_assoc]

/-- The numerator of the quotient whose integer twelfth root `tuningWord` takes. -/
def tuningNum (o n : Nat) : Nat := (880 * 2 ^ 32) ^ 12 * 2 ^ (12 * o + n)

/-- The denominator of that quotient. -/
def tuningDen (fs : Nat) : Nat := 2 ^ 57 * fs ^ 12

theorem tuningWord_eq (fs o n : Nat) : tuningWord fs o n = (root12 (tuningNum o n / tuningDen fs) + 1) / 2 := rfl

/-- The quotient is the twelfth power of twice the phase step. -/
theorem two_phaseStep_pow_twelve (fs o n : Nat) :
    (2 * phaseStep fs o n) ^ 12 = (tuningNum o n : ℝ) / (tuningDen fs : ℝ) := by
  unfold phaseStep tuningNum tuningDen
  rw [mul_pow, div_pow, mul_pow, freqRef_pow_twelve]
  push_cast
  ring

/-- No pitch lies above A7, three octaves over A4. -/
theorem freqRef_le {o n : Nat} (ho : o ≤ 6) (hn : n ≤ 11) : freqRef o n ≤ 440 * 2 ^ 3 := by
  have ho' : (o : ℝ) ≤ 6 := by exact_mod_cast ho
  have hn' : (n : ℝ) ≤ 11 := by exact_mod_cast hn
  have hexp : ((o : ℝ) - 4) + ((n : ℝ) - 9) / 12 ≤ (3 : ℕ) := by
    push_cast
    linarith
  have hpow := Real.rpow_le_rpow_of_exponent_le one_le_two hexp
  rw [Real.rpow_natCast] at hpow
  exact mul_le_mul_of_nonneg_left hpow (by norm_num)

theorem phaseStep_lt {fs o n : Nat} (hfs : FS_MIN ≤ fs) (ho : o ≤ 6) (hn : n ≤ 11) :
    phaseStep fs o n < 2 ^ 30 := by
  have hfs' : (36781 : ℝ) ≤ fs := by exact_mod_cast hfs
  have href := freqRef_le ho hn
  unfold phaseStep
  rw [div_lt_iff₀ (by linarith)]
  linarith

/-- The integer twelfth root of the integer part of `y^12` is the integer part of `y`. -/
theorem root12_floor_pow {y : ℝ} (h0 : 0 ≤ y) (h1 : y < 2 ^ 36) : root12 ⌊y ^ 12⌋₊ = ⌊y⌋₊ := by
  have hq : ⌊y ^ 12⌋₊ < (2 ^ 36) ^ 12 := by
    rw [Nat.floor_lt (pow_nonneg h0 12)]
    exact_mod_cast pow_lt_pow_left₀ h1 h0 (by decide)
  obtain ⟨hlo, hhi⟩ := root12_spec hq
  rw [Nat.le_floor_iff (pow_nonneg h0 12), Nat.cast_pow] at hlo
  rw [Nat.floor_lt (pow_nonneg h0 12), Nat.cast_pow, Nat.cast_succ] at hhi
  refine ((Nat.floor_eq_iff h0).2 ⟨?_, ?_⟩).symm
  · exact le_of_pow_le_pow_left₀ (by decide) h0 hlo
  · exact lt_of_pow_lt_pow_left₀ 12 (by positivity) hhi

/-- Rounding to nearest, of a value known by the integer part of its double. -/
theorem floor_two_mul_add_one_div_two {x : ℝ} (h : 0 ≤ x) : (((⌊2 * x⌋₊ + 1) / 2 : ℕ) : ℤ) = round x := by
  have hhalf : x + 1 / 2 = (2 * x + 1) / (2 : ℕ) := by
    push_cast
    ring
  rw [round_eq, ← Int.natCast_floor_eq_floor (by positivity), hhalf, Nat.floor_div_natCast,
    Nat.floor_add_one (by positivity)]

/-- Each tuning word is the real phase step rounded to nearest (R93). -/
theorem freqRom_eq_round {fs o n : Nat} (hfs : FS_MIN ≤ fs) (ho : o ≤ 6) (hn : n ≤ 11) :
    (freqRom fs o n : ℤ) = round (phaseStep fs o n) := by
  have h0 := phaseStep_nonneg fs o n
  have h1 := phaseStep_lt hfs ho hn
  have hroot : root12 (tuningNum o n / tuningDen fs) = ⌊2 * phaseStep fs o n⌋₊ := by
    rw [← root12_floor_pow (by linarith) (by linarith), two_phaseStep_pow_twelve, Nat.floor_div_eq_div]
  rw [freqRom_eq_tuningWord fs ho hn, tuningWord_eq, hroot]
  exact floor_two_mul_add_one_div_two h0

theorem freqRom_lt {fs o n : Nat} (hfs : FS_MIN ≤ fs) (ho : o ≤ 6) (hn : n ≤ 11) : freqRom fs o n < 2 ^ 31 := by
  have hfloor := Int.floor_le (phaseStep fs o n + 1 / 2)
  rw [← round_eq, ← freqRom_eq_round hfs ho hn, Int.cast_natCast] at hfloor
  have hreal : (freqRom fs o n : ℝ) < 2 ^ 31 := by linarith [phaseStep_lt hfs ho hn]
  exact_mod_cast hreal

theorem mul_two_phaseStep_pow_twelve (k fs o n : Nat) :
    (k * (2 * phaseStep fs o n)) ^ 12 = ((k ^ 12 * tuningNum o n : ℕ) : ℝ) / (tuningDen fs : ℝ) := by
  rw [mul_pow, two_phaseStep_pow_twelve, ← mul_div_assoc, Nat.cast_mul, Nat.cast_pow]

theorem tuningDen_pos {fs : Nat} (h : 0 < fs) : (0 : ℝ) < tuningDen fs := by
  unfold tuningDen
  positivity

/-- A multiple of the phase step is compared with a number through their twelfth powers, in natural numbers. -/
theorem lt_mul_two_phaseStep {m k fs o n : Nat} (hfs : 0 < fs)
    (h : m ^ 12 * tuningDen fs < k ^ 12 * tuningNum o n) : (m : ℝ) < k * (2 * phaseStep fs o n) := by
  have h0 := phaseStep_nonneg fs o n
  refine lt_of_pow_lt_pow_left₀ 12 (by positivity) ?_
  rw [mul_two_phaseStep_pow_twelve, lt_div_iff₀ (tuningDen_pos hfs)]
  exact_mod_cast h

theorem mul_two_phaseStep_lt {m k fs o n : Nat} (hfs : 0 < fs)
    (h : k ^ 12 * tuningNum o n < m ^ 12 * tuningDen fs) : k * (2 * phaseStep fs o n) < (m : ℝ) := by
  refine lt_of_pow_lt_pow_left₀ 12 (by positivity) ?_
  rw [mul_two_phaseStep_pow_twelve, div_lt_iff₀ (tuningDen_pos hfs)]
  exact_mod_cast h

/-- Each listed word, with its margin of 0.001 to a half written in twelfth powers. -/
theorem freqRom_margin : ∀ o ∈ List.range 7, ∀ n ∈ List.range 12, 0 < freqRom 44100 o n ∧
    (2000 * freqRom 44100 o n - 998) ^ 12 * tuningDen 44100 < 1000 ^ 12 * tuningNum o n ∧
    1000 ^ 12 * tuningNum o n < (2000 * freqRom 44100 o n + 998) ^ 12 * tuningDen 44100 := by
  decide +kernel

/-- At the default `FS` no phase step comes within 0.001 of a half (R93). -/
theorem phaseStep_sub_freqRom_lt {o n : Nat} (ho : o ≤ 6) (hn : n ≤ 11) : 0 < freqRom 44100 o n ∧
    |phaseStep 44100 o n - freqRom 44100 o n| < 1 / 2 - 1 / 1000 := by
  obtain ⟨hpos, hlo, hhi⟩ := freqRom_margin o (List.mem_range.2 (by omega)) n (List.mem_range.2 (by omega))
  have hlower := lt_mul_two_phaseStep (by decide) hlo
  have hupper := mul_two_phaseStep_lt (by decide) hhi
  rw [Nat.cast_sub (by omega)] at hlower
  push_cast at hlower hupper
  refine ⟨hpos, abs_lt.2 ⟨?_, ?_⟩⟩ <;> linarith

/-- Settles O32: the words are the rounded phase steps; at 44100 the margin is checked on the listing. -/
theorem tuningWordsRoundTheReference : Obligations.TuningWordsRoundTheReference := by
  intro fs o n hfs ho hn
  refine ⟨(freqRom_eq_round hfs ho hn).trans (round_eq _), freqRom_lt hfs ho hn, ?_⟩
  rintro rfl
  exact phaseStep_sub_freqRom_lt ho hn

/-- The frequency a word plays misses the reference by what rounding lost, scaled back to hertz (R95). -/
theorem abs_playedFrequency_sub_freqRef_le {fs o n : Nat} (hfs : FS_MIN ≤ fs) (ho : o ≤ 6) (hn : n ≤ 11) :
    |(freqRom fs o n : ℝ) * fs / 2 ^ 32 - freqRef o n| ≤ (fs : ℝ) / 2 ^ 33 := by
  have hpos : (0 : ℝ) < fs := by exact_mod_cast Nat.lt_of_lt_of_le (by decide) hfs
  have hscale : (0 : ℝ) < fs / 2 ^ 32 := by positivity
  have hround : |phaseStep fs o n - (freqRom fs o n : ℝ)| ≤ 1 / 2 := by
    have h := abs_sub_round (phaseStep fs o n)
    rwa [← freqRom_eq_round hfs ho hn, Int.cast_natCast] at h
  have href : freqRef o n = phaseStep fs o n * (fs / 2 ^ 32) := by
    unfold phaseStep
    field_simp
  calc |(freqRom fs o n : ℝ) * fs / 2 ^ 32 - freqRef o n|
      = |phaseStep fs o n - (freqRom fs o n : ℝ)| * (fs / 2 ^ 32) := by
        rw [href, mul_div_assoc, ← sub_mul, abs_mul, abs_sub_comm, abs_of_pos hscale]
    _ ≤ 1 / 2 * (fs / 2 ^ 32) := mul_le_mul_of_nonneg_right hround hscale.le
    _ = fs / 2 ^ 33 := by ring

/-- Settles O33: rounding loses at most half a step of `FS / 2^32`. -/
theorem tuningIsAccurateToHalfAStep : Obligations.TuningIsAccurateToHalfAStep :=
  ⟨fun _ _ _ => abs_playedFrequency_sub_freqRef_le, by decide, by rw [abs_lt]; constructor <;> norm_num⟩

/-- Settles O34: the 84 words of the listing, compared with their neighbours. -/
theorem tuningWordsIncreaseAndDouble : Obligations.TuningWordsIncreaseAndDouble := by
  unfold Obligations.TuningWordsIncreaseAndDouble
  decide +kernel

end Sys2Proof.Machine
end

