-- ==== Sys2Proof/Proofs/Oscillator.lean ====
section
/-!
PROOF. The oscillator against its references: the range of the three waveforms (R109), the square and the saw over
the rationals (R106, R107), the interpolation of the sine (R104) and the shape of its listing (R102).
-/

namespace Sys2Proof.Machine

/-- `asr` is the floor of the quotient over the rationals (R8). -/
theorem asr_eq_floor (a : Int) (k : Nat) : asr a k = ⌊(a : ℚ) / 2 ^ k⌋ := by
  have h := Rat.floor_intCast_div_natCast a (2 ^ k)
  push_cast at h
  exact h.symm

/-- `P[31]` is 0 in the first half of the period (R106). -/
theorem field_31_31_eq_zero_iff (p : Word32) : field p 31 31 = 0 ↔ p.toNat < 2 ^ 31 := by
  have := p.isLt
  simp only [field]
  omega

theorem squareU_of_first_half {p : Word32} (h : p.toNat < 2 ^ 31) : squareU p = ONE :=
  if_pos ((field_31_31_eq_zero_iff p).2 h)

theorem squareU_of_second_half {p : Word32} (h : 2 ^ 31 ≤ p.toNat) : squareU p = -ONE :=
  if_neg fun h0 => Nat.not_lt.2 h ((field_31_31_eq_zero_iff p).1 h0)

theorem squareU_range (p : Word32) : -ONE ≤ squareU p ∧ squareU p ≤ ONE := by
  rcases Nat.lt_or_ge p.toNat (2 ^ 31) with h | h
  · rw [squareU_of_first_half h]; decide
  · rw [squareU_of_second_half h]; decide

theorem sawU_range (p : Word32) : -ONE ≤ sawU p ∧ sawU p ≤ ONE := by
  have := p.isLt
  simp only [sawU, asr, ONE]
  omega

/-- Every waveform stays in `[-ONE, ONE]` (R109). -/
theorem osc_range (p : Word32) (w : Waveform) : -ONE ≤ osc p w ∧ osc p w ≤ ONE := by
  cases w with
  | sine => exact sinU_range p
  | square => exact squareU_range p
  | saw => exact sawU_range p

/-- Settles O29: the range of each waveform. -/
theorem oscillatorStaysWithinFullScale : Obligations.OscillatorStaysWithinFullScale := osc_range

/-- The square is the reference's square exactly (R106). -/
theorem squareU_eq_reference (p : Word32) :
    (squareU p : ℚ) = 2 ^ 24 * (if (p.toNat : ℚ) / 2 ^ 32 < 1 / 2 then 1 else -1) := by
  have hhalf : (p.toNat : ℚ) / 2 ^ 32 < 1 / 2 ↔ p.toNat < 2 ^ 31 := by
    rw [div_lt_iff₀ (by positivity), ← Nat.cast_lt (α := ℚ)]
    norm_num
  rcases Nat.lt_or_ge p.toNat (2 ^ 31) with h | h
  · rw [if_pos (hhalf.2 h), squareU_of_first_half h]; norm_num
  · rw [if_neg (mt hhalf.1 (Nat.not_lt.2 h)), squareU_of_second_half h]; norm_num

/-- The saw is the reference's ramp rounded toward minus infinity (R107). -/
theorem sawU_eq_floor_reference (p : Word32) :
    sawU p = ⌊(2 : ℚ) ^ 24 * (2 * ((p.toNat : ℚ) / 2 ^ 32) - 1)⌋ := by
  have hramp : (2 : ℚ) ^ 24 * (2 * ((p.toNat : ℚ) / 2 ^ 32) - 1) =
      ((p.toNat : Int) : ℚ) / 2 ^ 7 - (ONE : Int) := by
    push_cast
    ring
  rw [hramp, Int.floor_sub_intCast, ← asr_eq_floor]
  rfl

/-- Settles O30: both rules for every phase, and their examples evaluated. -/
theorem squareAndSawFollowTheReference : Obligations.SquareAndSawFollowTheReference :=
  ⟨squareU_eq_reference, sawU_eq_floor_reference, by decide +kernel⟩

/-- The ROM index of a phase is its upper ten bits (R104). -/
theorem field_31_22_of_parts {i frac : Nat} (hi : i < 1024) (hfrac : frac < 2 ^ 22) :
    field (BitVec.ofNat 32 (i * 2 ^ 22 + frac)) 31 22 = i := by
  simp only [field, BitVec.toNat_ofNat]
  omega

/-- The fraction between two ROM words is the lower 22 bits of the phase (R104). -/
theorem field_21_0_of_parts (i : Nat) {frac : Nat} (hfrac : frac < 2 ^ 22) :
    field (BitVec.ofNat 32 (i * 2 ^ 22 + frac)) 21 0 = frac := by
  simp only [field, BitVec.toNat_ofNat]
  omega

/-- Settles O28: the phase splits into index and fraction, and the floor shift is the floor of the quotient. -/
theorem sineInterpolatesTheRom : Obligations.SineInterpolatesTheRom := by
  intro i frac hi hfrac a b y
  have hindex := field_31_22_of_parts hi hfrac
  have hbetween := sinU_between (BitVec.ofNat 32 (i * 2 ^ 22 + frac))
  rw [hindex] at hbetween
  have hy : y = a + asr ((b - a) * frac) 22 := by
    simp only [y, a, b, sinU, hindex, field_21_0_of_parts i hfrac]
  rw [asr_eq_floor] at hy
  exact ⟨by exact_mod_cast hy, hbetween⟩

/-- Settles O31: the zeros, the peaks and both symmetries, word by word on the listing. -/
theorem sineRomIsSymmetric : Obligations.SineRomIsSymmetric := by
  unfold Obligations.SineRomIsSymmetric
  decide +kernel

end Sys2Proof.Machine
end

