-- ==== Sys2Proof/Proofs/SoloVoice.lean ====
section
/-!
PROOF. A voice that sounds alone and unfiltered: each TICK plays the waveform at its phase and advances the phase by
one tuning word (R111, R112, R127, R182), so a run of TICKs plays the waveform step by step.
-/

namespace Sys2Proof.Machine

/-- A slot whose phase has moved on by `n` tuning words, modulo `2^32` (R111). -/
def Voice.advanced (v : Voice) (c : Config) (n : Nat) : Voice :=
  { v with p := BitVec.ofNat 32 (v.p.toNat + n * freqRom c.fs v.voct.toNat v.note.toNat) }

theorem Voice.advanced_zero (v : Voice) (c : Config) : v.advanced c 0 = v := by
  simp [Voice.advanced]

theorem Voice.advanced_advanced (v : Voice) (c : Config) (m n : Nat) :
    (v.advanced c m).advanced c n = v.advanced c (n + m) := by
  simp only [Voice.advanced, Voice.mk.injEq, true_and, and_true]
  apply BitVec.eq_of_toNat_eq
  simp only [BitVec.toNat_ofNat, Nat.mod_add_mod, Nat.add_comm n m, Nat.add_mul, Nat.add_assoc]

/-- With `FILT_EN = 0` a sounding slot contributes the oscillator's sample at its phase (R127). -/
theorem laneSample_unfiltered {c : LaneInputs} {v : Voice} (ha : v.active = true) (hf : c.filtEn = false) :
    laneSample c v = osc v.p c.wave := by
  simp only [laneSample, ha, hf, if_true, Bool.false_eq_true, if_false]

/-- With `FILT_EN = 0` a TICK moves a sounding slot's phase by its tuning word and writes nothing else (R111, R127). -/
theorem laneVoice_unfiltered {c : LaneInputs} {v : Voice} (ha : v.active = true) (hf : c.filtEn = false) :
    laneVoice c v = v.advanced c.config 1 := by
  simp only [laneVoice, filteredVoice, Voice.advanced, Voice.inc, ha, hf, if_true, Bool.false_eq_true, if_false,
    BitVec.ofNat_add, BitVec.ofNat_toNat, BitVec.setWidth_eq, Nat.one_mul]

/-- The mix adds the slots one after the other (R182). -/
theorem mixSum_cons (c : LaneInputs) (v : Voice) (vs : List Voice) :
    mixSum c (v :: vs) = laneSample c v + mixSum c vs := List.sum_cons

/-- The sum of the mix with one sounding slot is that slot's contribution (R182). -/
theorem mixSum_of_solo (c : LaneInputs) {v : Voice} : ∀ {vs : List Voice} {i : Nat}, vs[i]? = some v →
    (∀ (j : Nat) (u : Voice), vs[j]? = some u → u.active = true → j = i) → mixSum c vs = laneSample c v
  | [], _, hv, _ => by cases hv
  | x :: xs, 0, hv, halone => by
    cases hv
    have hrest : ∀ u ∈ xs, u.active = false := fun u hu => by
      obtain ⟨j, hj⟩ := List.mem_iff_getElem?.1 hu
      exact Bool.eq_false_iff.2 fun ha => Nat.succ_ne_zero j (halone (j + 1) u hj ha)
    rw [mixSum_cons, mixSum_of_silent hrest, add_zero]
  | x :: xs, i + 1, hv, halone => by
    have hx : x.active = false := Bool.eq_false_iff.2 fun ha => Nat.succ_ne_zero i (halone 0 x rfl ha).symm
    have hrest := mixSum_of_solo c (vs := xs) hv fun j u hj ha => Nat.succ.inj (halone (j + 1) u hj ha)
    rw [mixSum_cons, laneSample_of_idle hx, zero_add, hrest]

/-- Slot `i` holds `v`, which alone sounds, unfiltered, and no command waits: what a TICK keeps of a solo voice. -/
structure State.Solo (s : State) (i : Nat) (v : Voice) : Prop where
  fifo : s.fifo = []
  filtEn : s.filtEn = false
  voice : s.voices[i]? = some v
  active : v.active = true
  alone : ∀ (j : Nat) (u : Voice), s.voices[j]? = some u → u.active = true → j = i

namespace State.Solo
variable {s : State} {i : Nat} {v : Voice} (h : s.Solo i v)
include h

/-- The sample is the waveform at the voice's phase: the clamp of the mix changes nothing (R109, R182). -/
theorem mixSample_eq : mixSample (laneInputs s) s.voices = osc v.p s.wave := by
  obtain ⟨hlo, hhi⟩ := osc_range v.p s.wave
  have hlane : laneSample (laneInputs s) v = osc v.p s.wave := laneSample_unfiltered h.active h.filtEn
  rw [mixSample, mixSum_of_solo _ h.voice h.alone, hlane, clamp_of_mem hlo hhi]

/-- Producing a sample keeps the voice solo, one tuning word on. -/
theorem after_produceSample : (produceSample s).Solo i (v.advanced s.config 1) where
  fifo := h.fifo
  filtEn := h.filtEn
  voice := by
    rw [produceSample_getElem?, h.voice, Option.map_some, laneVoice_unfiltered h.active h.filtEn]
    rfl
  active := h.active
  alone := fun j u hj ha => by
    rw [produceSample_getElem?, Option.map_eq_some_iff] at hj
    obtain ⟨w, hw, rfl⟩ := hj
    exact h.alone j w hw ((laneVoice_fields _ w).1 ▸ ha)

/-- The requests still to come have no effect on a solo voice. -/
theorem setPending (ops : List PortOp) : (s.setPending ops).Solo i v :=
  ⟨h.fifo, h.filtEn, h.voice, h.active, h.alone⟩

/-- The next TICK of a block with a solo voice produces a sample from the state as it stands: no command waits. -/
theorem step_eq {rest : List PortOp} (hs : s.Ready) (hp : s.pending = .tick :: rest) :
    step s = .next (produceSample (s.setPending rest)) := by
  have hdrain : drainWords (s.setPending rest).fifo (s.setPending rest) = .next (s.setPending rest) := by
    rw [State.setPending_fifo, h.fifo]
    rfl
  exact (step_of_ready hs hp).trans (tick_of_drain hdrain)

end State.Solo

/-- The last of `k + 1` TICKs plays the waveform `k` tuning words on, and leaves the phase one more on (R112). -/
theorem run_of_solo {rest : List PortOp} {i : Nat} : ∀ (k : Nat) {s : State} {v : Voice}, s.Ready → s.Solo i v →
    s.pending = List.replicate (k + 1) .tick ++ rest → ∃ t, Host.Core.run core (k + 1) s = .next t ∧
      t.pending = rest ∧ t.output = .sample (BitVec.ofInt 32 (osc (v.advanced s.config k).p s.wave)) ∧
      t.voices[i]? = some (v.advanced s.config (k + 1))
  | 0, s, v, hs, h, hp => by
    have hsolo := h.setPending rest
    refine ⟨_, run_one (h.step_eq (rest := rest) hs hp), rfl, ?_, hsolo.after_produceSample.voice⟩
    rw [Voice.advanced_zero, produceSample_eq, State.setOutput_output, hsolo.mixSample_eq, State.setPending_wave]
  | k + 1, s, v, hs, h, hp => by
    have hsolo := h.setPending (List.replicate (k + 1) .tick ++ rest)
    have hstep := h.step_eq hs hp
    obtain ⟨t, hrun, pending, output, voice⟩ :=
      run_of_solo k (step_keeps_ready hs hstep) hsolo.after_produceSample rfl
    rw [← v.advanced_advanced s.config 1 k, ← v.advanced_advanced s.config 1 (k + 1)]
    exact ⟨t, (run_succ hstep _).trans hrun, pending, output, voice⟩

/-- Settles O26: the statement's hypotheses are a solo voice's, and a run of TICKs keeps it one. -/
theorem soloVoicePlaysItsWaveform : Obligations.SoloVoicePlaysItsWaveform :=
  fun _ _ k _ _ hs hfifo hp hfilt hv ha halone => run_of_solo k hs ⟨hfifo, hfilt, hv, ha, halone⟩ hp

end Sys2Proof.Machine
end

