-- ==== Sys2Proof/Proofs/FilterEquations.lean ====
section
/-!
PROOF. One call of the filter: its three saturated lines over the integers (R120), and the one sample by which its
output lags its input (R130).
-/

namespace Sys2Proof.Machine

theorem sat32_eq_max_min (v : Int) : sat32 v = max (-(2 ^ 31)) (min (2 ^ 31 - 1) v) :=
  clamp_eq_max_min (by decide) v

theorem mulq_eq_floor (a b : Int) : mulq a b = ⌊((a * b : Int) : ℚ) / 2 ^ 24⌋ :=
  asr_eq_floor (a * b) 24

/-- Settles O35: the filter's lines are R120's, with R8's saturation and product. -/
theorem filterFollowsItsEquations : Obligations.FilterFollowsItsEquations := by
  intro x l b f qd
  simp only [svf, sat32_eq_max_min, mulq_eq_floor]

/-- The output is the first line of R120, in which the input does not stand (R130). -/
theorem svf_y (x l b : Int) (c : Coefficients) : (svf x l b c).y = sat32 (l + mulq c.f b) := rfl

/-- Fresh filter registers put out 0, whatever the input (R128, R130). -/
theorem svf_y_of_fresh (x : Int) (c : Coefficients) : (svf x 0 0 c).y = 0 := by
  rw [svf_y, mulq_zero_right, add_zero]
  exact sat32_of_mem (by decide) (by decide)

/-- With `FILT_EN = 1` a sounding slot contributes the filter's output (R126). -/
theorem laneSample_filtered {c : LaneInputs} {v : Voice} (ha : v.active = true) (hf : c.filtEn = true) :
    laneSample c v = (svf (osc v.p c.wave) v.l.toInt v.b.toInt c.coefs).y := by
  unfold laneSample
  rw [if_pos ha, if_pos hf]

/-- A voice just started contributes 0 to its first filtered sample (R130). -/
theorem laneSample_startedVoice {c : LaneInputs} (hf : c.filtEn = true) (octave : BitVec 3) (note : BitVec 4) :
    laneSample c (startedVoice octave note) = 0 :=
  (laneSample_filtered rfl hf).trans (svf_y_of_fresh _ c.coefs)

/-- Settles O37: no input stands in the output's line; at the reset cutoff and resonance, an input of 1.0 and one
of 0 into fresh registers are told apart by the next output. -/
theorem filterOutputLagsOneSample : Obligations.FilterOutputLagsOneSample := by
  refine ⟨fun x x' l b c => (svf_y x l b c).trans (svf_y x' l b c).symm,
    fun _ octave note hf => laneSample_startedVoice hf octave note, ?_⟩
  exact ⟨ONE, 0, 0, 0, 0, ⟨coefF 44100 CUTOFF_RESET, coefQD RES_IDX_RESET⟩, by decide⟩

end Sys2Proof.Machine
end

