-- ==== Sys2Proof/Proofs/FilterCoefficients.lean ====
section
/-!
PROOF. The two coefficients of the filter (R122, R123): their tables at 44100 (R125) and their ranges.
-/

namespace Sys2Proof.Machine

theorem coefF_range_of_multiple : ∀ k ∈ List.range 51, 1 ≤ k →
    0 < coefF 44100 (100 * k) ∧ coefF 44100 (100 * k) ≤ 11700606 := by
  decide

/-- The range R122 states for `F` at 44100. -/
theorem coefF_range {cutoff : Nat} (h : CutoffLegal cutoff) :
    0 < coefF 44100 cutoff ∧ coefF 44100 cutoff ≤ 11700606 := by
  obtain ⟨k, hk1, hk50, rfl⟩ := h.eq_multiple
  exact coefF_range_of_multiple k (List.mem_range.2 (Nat.lt_succ_of_le hk50)) hk1

/-- `QD` is positive and stands for at most 2 (R123). -/
theorem coefQD_range (resIdx : BitVec 4) : 0 < coefQD resIdx.toNat ∧ coefQD resIdx.toNat ≤ 2 ^ 25 := by
  have := resIdx.isLt
  unfold coefQD
  omega

/-- The phase of a legal cutoff lies in the first quarter of the sine, where the sine increases (R122). -/
theorem cutoffPhase_lt {fs cutoff : Nat} (hfs : FS_MIN ≤ fs) (h : CutoffLegal cutoff) :
    cutoffPhase fs cutoff < 2 ^ 30 := by
  obtain ⟨-, hmax, -⟩ := h
  unfold FS_MIN at hfs
  unfold CUTOFF_MAX at hmax
  unfold cutoffPhase
  rw [Nat.div_lt_iff_lt_mul (by omega)]
  omega

/-- Settles O38: the tables row by row, the ranges for every legal cutoff. -/
theorem coefficientsFollowTheTables : Obligations.CoefficientsFollowTheTables :=
  ⟨by decide, by decide, by decide, fun _ => coefF_range, fun _ _ => cutoffPhase_lt⟩

end Sys2Proof.Machine
end

