-- ==== Sys2Proof/Proofs/FilterStability.lean ====
section
/-!
PROOF. The poles of the linear map of R131: Jury's test for a real quadratic, and that every legal setting passes it.
-/

namespace Sys2Proof.Machine

section jury
variable {t d : ℝ} (hd : d < 1) (ht : |t| < 1 + d)

include hd ht in
/-- A real root of a quadratic that passes Jury's test lies in the open unit interval: at and beyond 1 the
quadratic exceeds `(x - 1) * (x - d)`, and at and beyond -1 `(x + 1) * (x + d)`. -/
theorem abs_lt_one_of_real_root {x : ℝ} (hx : x ^ 2 - t * x + d = 0) : |x| < 1 := by
  obtain ⟨hlo, hhi⟩ := abs_lt.1 ht
  rw [abs_lt]
  constructor
  · by_contra! h
    have hquad : 0 ≤ (-x - 1) * (-x - d) := mul_nonneg (by linarith) (by linarith)
    have hslope : 0 < (t + (1 + d)) * -x := mul_pos (by linarith) (by linarith)
    linarith
  · by_contra! h
    have hquad : 0 ≤ (x - 1) * (x - d) := mul_nonneg (by linarith) (by linarith)
    have hslope : 0 < (1 + d - t) * x := mul_pos (by linarith) (by linarith)
    linarith

/-- The squared magnitude of a root off the real axis is the product of the two roots, the constant term. -/
theorem normSq_eq_of_nonreal_root {z : ℂ} (him : z.im ≠ 0) (hz : z ^ 2 - (t : ℂ) * z + (d : ℂ) = 0) :
    Complex.normSq z = d := by
  have hre : z.re * z.re - z.im * z.im - t * z.re + d = 0 := by
    simpa [pow_two] using congrArg Complex.re hz
  have himag : z.re * z.im + z.im * z.re - t * z.im = 0 := by
    simpa [pow_two] using congrArg Complex.im hz
  have htrace : t = 2 * z.re := mul_right_cancel₀ him (by linarith)
  rw [htrace] at hre
  rw [Complex.normSq_apply]
  linarith

include hd ht in
/-- Jury's test for a quadratic with real coefficients: trace `t`, determinant `d` (R131). -/
theorem norm_lt_one_of_root {z : ℂ} (hz : z ^ 2 - (t : ℂ) * z + (d : ℂ) = 0) : ‖z‖ < 1 := by
  by_cases him : z.im = 0
  · obtain ⟨x, rfl⟩ : ∃ x : ℝ, (x : ℂ) = z := ⟨z.re, Complex.ext rfl him.symm⟩
    rw [Complex.norm_real]
    exact abs_lt_one_of_real_root hd ht (by exact_mod_cast hz)
  · have hnorm : ‖z‖ ^ 2 < 1 := by rwa [← Complex.normSq_eq_norm_sq, normSq_eq_of_nonreal_root him hz]
    exact (sq_lt_one_iff₀ (norm_nonneg z)).1 hnorm

end jury

/-- A filter with `f` up to 0.7 and damping from 0 to 2 passes Jury's test: its trace stays below `1 + d` since
`f` is positive, and above `-(1 + d)` since `f ^ 2 + 2 * f * q < 4` (R131). -/
theorem jury_of_range {f q : ℝ} (hf0 : 0 < f) (hf : f ≤ 7 / 10) (hq0 : 0 < q) (hq : q ≤ 2) :
    1 - f * q < 1 ∧ |2 - f ^ 2 - f * q| < 1 + (1 - f * q) := by
  have hsq0 : 0 < f ^ 2 := by positivity
  have hfq0 : 0 < f * q := by positivity
  have hsq : f ^ 2 ≤ (7 / 10) ^ 2 := pow_le_pow_left₀ hf0.le hf 2
  have hfq : f * q ≤ 7 / 10 * 2 := mul_le_mul hf hq hq0.le (by norm_num)
  rw [abs_lt]
  refine ⟨?_, ?_, ?_⟩ <;> linarith

/-- The bounds of a positive S8.24 value, for the real number it stands for (R9). -/
theorem s824_range {n : Int} {u : ℝ} (hpos : 0 < n) (hle : (n : ℝ) ≤ u * 2 ^ 24) :
    0 < (n : ℝ) / 2 ^ 24 ∧ (n : ℝ) / 2 ^ 24 ≤ u :=
  ⟨div_pos (Int.cast_pos.2 hpos) (by positivity), (div_le_iff₀ (by positivity)).2 hle⟩

/-- Settles O39: the ranges of the coefficients put every legal setting inside Jury's test. -/
theorem everyLegalFilterSettingIsStable : Obligations.EveryLegalFilterSettingIsStable := by
  intro cutoff resIdx hcut f q z hz
  obtain ⟨hF0, hF⟩ := coefF_range hcut
  obtain ⟨hQ0, hQ⟩ := coefQD_range resIdx
  obtain ⟨hf0, hf⟩ : 0 < f ∧ f ≤ 7 / 10 := s824_range hF0 ((Int.cast_le.2 hF).trans (by norm_num))
  obtain ⟨hq0, hq⟩ : 0 < q ∧ q ≤ 2 := s824_range hQ0 ((Int.cast_le.2 hQ).trans (by norm_num))
  obtain ⟨hdet, htrace⟩ := jury_of_range hf0 hf hq0 hq
  exact norm_lt_one_of_root hdet htrace hz

end Sys2Proof.Machine
end

