-- ==== Sys2Proof/Proofs/VoiceCommands.lean ====
section
/-!
PROOF. The two commands that start and end voices (R140, R141), and the slots they do not reach (R144): each rewrites
the one slot its operand names, when there is one.
-/

namespace Sys2Proof.Machine

/-! ### Writing through a slot operand -/

section slot
variable {slot : BitVec 4} {s : State} (f : Voice → Voice)

theorem onSlot_getElem?_of_ne {i : Nat} (h : i ≠ slot.toNat) : (onSlot slot f s).voices[i]? = s.voices[i]? := by
  rw [onSlot_getElem?, if_neg fun hi => h hi.1.symm]

theorem onSlot_getElem?_of_present (h : slot.toNat < s.config.numVoices) :
    (onSlot slot f s).voices[slot.toNat]? = s.voices[slot.toNat]?.map f := by
  rw [onSlot_getElem?, if_pos ⟨rfl, h⟩]

/-- Rewriting a slot by a function that leaves its value alone leaves the state alone. -/
theorem onSlot_of_fixed {f : Voice → Voice} (h : ∀ v, s.voices[slot.toNat]? = some v → f v = v) :
    onSlot slot f s = s := by
  have hvoices : (onSlot slot f s).voices = s.voices := by
    apply List.ext_getElem?
    intro i
    rw [onSlot_getElem?]
    split
    case isTrue hi =>
      rw [hi.1] at h
      cases hv : s.voices[i]? with
      | none => rfl
      | some v => exact congrArg some (h v hv)
    case isFalse => rfl
  rw [onSlot_eq_setVoices, hvoices]
  rfl

end slot

/-! ### The two commands -/

/-- Each slot value is in range at the default `NUM_VOICES` (R5, R72). -/
theorem slot_lt_default_numVoices (slot : BitVec 4) : slot.toNat < Config.default.numVoices := slot.isLt

/-- Settles O9: the slot operand names no slot, so neither command writes anything; a slot operand has four bits. -/
theorem absentSlotsAreIgnored : Obligations.AbsentSlotsAreIgnored :=
  ⟨fun _ _ note h => ⟨exec_noteOn_of_absent_slot h note, exec_noteOff_of_absent_slot h⟩, slot_lt_default_numVoices⟩

/-- NOTE_ON with a pitch class leaves a present slot started, whatever the slot held (R140). -/
theorem exec_noteOn_getElem? {slot note : BitVec 4} {s t : State} (hnote : note.toNat ≤ 11)
    (h : exec (.noteOn slot note) s = .next t) (hslot : slot.toNat < s.config.numVoices) :
    t.voices[slot.toNat]? = s.voices[slot.toNat]?.map fun _ => startedVoice s.octave note := by
  cases (exec_noteOn_of_present (decide_eq_true hnote) slot s).symm.trans h
  exact onSlot_getElem?_of_present _ hslot

/-- NOTE_OFF clears `ACTIVE` of a present slot and no other field of it (R141). -/
theorem exec_noteOff_getElem? {slot : BitVec 4} {s t : State} (h : exec (.noteOff slot) s = .next t)
    (hslot : slot.toNat < s.config.numVoices) :
    t.voices[slot.toNat]? = s.voices[slot.toNat]?.map fun v => { v with active := false } := by
  cases h
  exact onSlot_getElem?_of_present _ hslot

/-- After a NOTE_OFF, whatever came before it, the slot is Idle and contributes nothing (R141). -/
theorem idle_of_exec_noteOff {slot : BitVec 4} {s t : State} {v : Voice} (h : exec (.noteOff slot) s = .next t)
    (hslot : slot.toNat < s.config.numVoices) (hv : t.voices[slot.toNat]? = some v) :
    v.active = false ∧ laneSample (laneInputs t) v = 0 := by
  rw [exec_noteOff_getElem? h hslot] at hv
  obtain ⟨u, -, rfl⟩ := Option.map_eq_some_iff.1 hv
  exact ⟨rfl, laneSample_of_idle rfl _⟩

/-- After a NOTE_ON, whatever came before it, the slot is Sounding from phase 0 (R140). -/
theorem sounding_of_exec_noteOn {slot note : BitVec 4} {s t : State} {v : Voice} (hnote : note.toNat ≤ 11)
    (h : exec (.noteOn slot note) s = .next t) (hslot : slot.toNat < s.config.numVoices)
    (hv : t.voices[slot.toNat]? = some v) : v.active = true ∧ v.p = 0 := by
  rw [exec_noteOn_getElem? hnote h hslot] at hv
  obtain ⟨u, -, rfl⟩ := Option.map_eq_some_iff.1 hv
  exact ⟨rfl, rfl⟩

/-! ### Their words -/

/-- The words of NOTE_ON and the operands they carry (R73). -/
theorem decode_noteOn_operands_iff (w : CmdWord) (slot note : BitVec 4) :
    decode w = .instr (.noteOn slot note) ↔
      w &&& 0xF0F0 = 0x1000 ∧ field w 3 0 ≤ 11 ∧ slot.toNat = field w 11 8 ∧ note.toNat = field w 3 0 := by
  rw [match_noteOn_iff, decode_eq_instr_iff]
  constructor
  · rintro ⟨hw, hop, hslot, hsub, hnote⟩
    exact ⟨⟨hop, hsub⟩, hnote ▸ of_decide_eq_true hw, hslot.symm, hnote.symm⟩
  · rintro ⟨⟨hop, hsub⟩, hle, hslot, hnote⟩
    exact ⟨decide_eq_true (hnote ▸ hle), hop, hslot.symm, hsub, hnote.symm⟩

/-- The words of NOTE_OFF and the operand they carry (R73). -/
theorem decode_noteOff_operand_iff (w : CmdWord) (slot : BitVec 4) :
    decode w = .instr (.noteOff slot) ↔ w &&& 0xF0FF = 0x2000 ∧ slot.toNat = field w 11 8 := by
  rw [match_noteOff_iff, decode_eq_instr_iff]
  constructor
  · rintro ⟨-, hop, hslot, hsub, hnote⟩
    exact ⟨⟨hop, hsub, hnote⟩, hslot.symm⟩
  · rintro ⟨⟨hop, hsub, hnote⟩, hslot⟩
    exact ⟨rfl, hop, hslot.symm, hsub, hnote⟩

/-- With note 12..15 the word of a NOTE_ON is RESERVED (R75). -/
theorem decode_reserved_of_noteOn_match {w : CmdWord} (hmatch : w &&& 0xF0F0 = 0x1000) (hnote : 11 < field w 3 0) :
    decode w = .reserved w := by
  obtain ⟨hop, -⟩ := (match_noteOn_iff w).1 hmatch
  exact (decode_eq_reserved_iff w).2 (.inr (.inr (.inr (.inr ⟨hop, hnote⟩))))

/-! ### The statements -/

/-- Settles O7: NOTE_ON writes `startedVoice` through its slot operand and nothing else; its words carry its fields;
the first samples and the rule's runs are computed. -/
theorem noteOnStartsTheSlot : Obligations.NoteOnStartsTheSlot := by
  refine ⟨fun s slot note hnote => ?_, by decide, by decide, by decide, decode_noteOn_operands_iff,
    fun _ => decode_reserved_of_noteOn_match, by decide +kernel, by decide +kernel, by decide +kernel⟩
  have hexec := exec_noteOn_of_present (decide_eq_true hnote) slot s
  refine ⟨_, hexec, onSlot_eq_setVoices .., onSlot_length .., fun i => onSlot_getElem?_of_ne _,
    fun habsent => onSlot_of_absent habsent _, fun hpresent hlt => ?_⟩
  rw [exec_noteOn_getElem? hnote hexec hpresent, List.getElem?_eq_getElem hlt]
  rfl

/-- Settles O8: NOTE_OFF clears `ACTIVE` through its slot operand and writes nothing else; of a NOTE_ON and a NOTE_OFF
the second decides, since neither moves `NUM_VOICES`; the rule's runs are computed. -/
theorem noteOffEndsTheSlot : Obligations.NoteOffEndsTheSlot := by
  refine ⟨fun s slot => ?_, fun s u t slot note hon hoff hslot v => ?_, fun s u t slot note hnote hoff hon hslot v => ?_,
    decode_noteOff_operand_iff, by decide +kernel, by decide +kernel⟩
  · refine ⟨_, rfl, onSlot_eq_setVoices .., onSlot_length .., fun i => onSlot_getElem?_of_ne _,
      fun habsent => onSlot_of_absent habsent _, onSlot_getElem?_of_present _, fun hidle => ?_⟩
    refine onSlot_of_fixed fun v hv => ?_
    rw [← hidle v hv]
  · exact idle_of_exec_noteOff hoff ((exec_frame hon).config ▸ hslot)
  · exact sounding_of_exec_noteOn hnote hon ((exec_frame hoff).config ▸ hslot)

end Sys2Proof.Machine
end

