-- ==== Sys2Proof/Proofs/AppliedCommand.lean ====
section
/-!
PROOF. The step that applies a command: a TICK runs the word at the head of the FIFO before anything else (R161, R181).
-/

namespace Sys2Proof.Machine

/-- With no word waiting a TICK only produces its sample (R181). -/
theorem tick_of_empty {s : State} (hf : s.fifo = []) : tick s = .next (produceSample s) :=
  tick_of_drain (by rw [hf]; rfl)

/-- The step of a TICK that finds a word is the TICK of the state the word leaves (R161). -/
theorem step_of_tick_cons {s u : State} {w : CmdWord} {ws : List CmdWord} {rest : List PortOp} (hs : s.Ready)
    (hp : s.pending = .tick :: rest) (hf : s.fifo = w :: ws)
    (h : applyWord w ((s.setPending rest).setFifo ws) = .next u) : step s = tick u :=
  (step_of_ready hs hp).trans (tick_cons (s := s.setPending rest) hf h)

/-- The step of a TICK that finds the word of one command runs the command and produces its sample. -/
theorem step_of_tick_single {s t : State} {w : CmdWord} {i : Instr} {rest : List PortOp} (hs : s.Ready)
    (hp : s.pending = .tick :: rest) (hf : s.fifo = [w]) (hd : decode w = .instr i)
    (h : exec i ((s.setPending rest).setFifo []) = .next t) : step s = .next (produceSample t) := by
  rw [step_of_tick_cons hs hp hf ((applyWord_of_instr hd _).trans h)]
  exact tick_of_empty (exec_frame h).fifo

/-- A word of the opcode table that stands for a command decodes to it. -/
theorem decode_of_decodeTableWord {nbits w : Nat} {i : Instr} (h : decodeTableWord nbits w = some i) :
    decode (BitVec.ofNat 16 (w % 2 ^ nbits)) = .instr i := by
  unfold decodeTableWord at h
  split at h
  next j hd => cases h; exact hd
  next => cases h

/-- Placing a word leaves the block in operation: every legal FIFO has room for one word (R5, log 2). -/
theorem withFetchWord_ready {s : State} (hs : s.Ready) (nbits w : Nat) : (s.withFetchWord nbits w).Ready := by
  obtain ⟨hdone, hconfig, octave, cutoff, slots, voices, -⟩ := hs
  have ⟨_, _, _, hdepth, _⟩ := hconfig
  exact ⟨hdone, hconfig, octave, cutoff, slots, voices, hdepth⟩

/-- Settles O19: a TICK takes the word at the head of the FIFO first, and a placed word is the only one there. -/
theorem stepRunsTheDecodedCommand : Obligations.StepRunsTheDecodedCommand := by
  refine ⟨fun s t i w ws rest hs hp hf hd h => ?_, fun s w ws rest hs hp hf hd => ?_, fun s rest hs hp hf => ?_,
    fun s t i w hs hd h => ?_⟩
  · exact step_of_tick_cons hs hp hf ((applyWord_of_instr hd _).trans h)
  · exact step_of_tick_cons hs hp hf (applyWord_of_reserved hd _)
  · exact (step_of_ready hs hp).trans (tick_of_empty (s := s.setPending rest) hf)
  · exact step_of_tick_single (withFetchWord_ready hs 16 w) rfl rfl (decode_of_decodeTableWord hd) h

end Sys2Proof.Machine
end

