-- ==== Sys2Proof/Proofs/GlobalCommands.lean ====
section
/-!
PROOF. The commands without operands (R150 to R159): each has one word and writes one register or flag.
-/

namespace Sys2Proof.Machine

/-- The word `v` of a well-formed command is the only word that decodes to it. -/
theorem decode_eq_instr_iff_eq {i : Instr} {v : CmdWord} (hw : i.wellFormed = true) (hv : encode i = v) (w : CmdWord) :
    decode w = .instr i ↔ w = v := by
  rw [decode_eq_instr_iff_encode hw, hv]
  exact eq_comm

/-- A step down to at least `lo`, over the integers, where `x - d` may be negative. -/
theorem cast_max_sub (x d lo : Nat) : ((max (x - d) lo : Nat) : Int) = max ((x : Int) - d) lo := by omega

/-! ### NOP and CLR_OVF -/

/-- Settles O6: NOP answers its state, and the FIFO takes its word like any other. -/
theorem nopDoesNothing : Obligations.NopDoesNothing := by
  refine ⟨fun _ => rfl, decode_eq_instr_iff_eq rfl rfl, fun s hroom => ?_, by decide +kernel⟩
  rw [cmdWrite_of_room hroom]
  exact List.length_append

/-- Settles O16: CLR_OVF writes `OVF` alone; at a full FIFO its word is dropped before anything decodes it. -/
theorem clearOverflowClearsTheFlag : Obligations.ClearOverflowClearsTheFlag := by
  refine ⟨fun _ => ⟨_, rfl, rfl, rfl⟩, decode_eq_instr_iff_eq rfl rfl, fun s hfull => ?_, by decide +kernel,
    by decide +kernel, by decide +kernel⟩
  rw [cmdWrite_of_full hfull]
  exact ⟨rfl, rfl⟩

/-! ### The clamped registers -/

/-- Settles O11: one step of `OCTAVE` each way, clamped. -/
theorem octaveMovesByOneWithinItsBounds : Obligations.OctaveMovesByOneWithinItsBounds := by
  refine ⟨fun s => ⟨_, rfl, rfl, exec_octUp_octave rfl⟩, fun s => ⟨_, rfl, rfl, ?_⟩, decode_eq_instr_iff_eq rfl rfl,
    decode_eq_instr_iff_eq rfl rfl, by decide +kernel, by decide +kernel⟩
  rw [exec_octDown_octave rfl]
  exact cast_max_sub _ 1 0

/-- Settles O15: one step of `RES_IDX` each way, clamped. -/
theorem resonanceMovesByOneWithinItsBounds : Obligations.ResonanceMovesByOneWithinItsBounds := by
  refine ⟨fun s => ⟨_, rfl, rfl, exec_resUp_resIdx rfl⟩, fun s => ⟨_, rfl, rfl, ?_⟩, decode_eq_instr_iff_eq rfl rfl,
    decode_eq_instr_iff_eq rfl rfl, by decide +kernel, by decide +kernel⟩
  rw [exec_resDown_resIdx rfl]
  exact cast_max_sub _ 1 0

/-- The lanes of a TICK take the coefficient of the cutoff its commands left, at a sample rate none of them moves
(R124). -/
theorem laneInputs_coefs_f {s t : State} (hc : t.config = s.config) :
    (laneInputs t).coefs.f = coefF s.config.fs t.cutoff.toNat := by
  rw [← hc]
  rfl

/-- Settles O14: one step of `CUTOFF` each way, clamped; the lanes are evaluated after it. -/
theorem cutoffMovesByOneStepWithinItsBounds : Obligations.CutoffMovesByOneStepWithinItsBounds := by
  have hup := decode_eq_instr_iff_eq (i := .cutUp) (v := 0x7000) rfl rfl
  have hdown := decode_eq_instr_iff_eq (i := .cutDown) (v := 0x8000) rfl rfl
  refine ⟨fun s => ⟨_, rfl, rfl, exec_cutUp_cutoff rfl⟩, fun s => ⟨_, rfl, rfl, ?_⟩, fun s t rest hs hp h => ?_,
    hup, hdown, by decide +kernel, by decide +kernel⟩
  · rw [exec_cutDown_cutoff rfl]
    exact cast_max_sub _ 100 100
  · obtain ⟨hf, h⟩ | ⟨hf, h⟩ := h
    · exact ⟨step_of_tick_single hs hp hf ((hup _).2 rfl) h, laneInputs_coefs_f (exec_frame h).config⟩
    · exact ⟨step_of_tick_single hs hp hf ((hdown _).2 rfl) h, laneInputs_coefs_f (exec_frame h).config⟩

/-! ### The waveform and the filter's enable -/

theorem Waveform.code_succ (w : Waveform) : w.succ.code.toNat = (w.code.toNat + 1) % 3 := by
  cases w <;> rfl

theorem Waveform.succ_succ_succ (w : Waveform) : w.succ.succ.succ = w := by
  cases w <;> rfl

/-- Settles O12: `Waveform.succ` is the step of the codes and returns after three; a TICK that applies it finds
the voices untouched. -/
theorem waveCyclesThroughThreeWaveforms : Obligations.WaveCyclesThroughThreeWaveforms := by
  have hword := decode_eq_instr_iff_eq (i := .waveCycle) (v := 0x5000) rfl rfl
  refine ⟨fun s => ⟨_, rfl, rfl, s.wave.code_succ⟩, fun s t u v ht hu hv => ?_, fun s t rest hs hp hf h => ?_,
    hword, by decide +kernel⟩
  · cases ht; cases hu; cases hv
    exact congrArg s.setWave s.wave.succ_succ_succ
  · refine ⟨?_, step_of_tick_single hs hp hf ((hword _).2 rfl) h⟩
    cases h; rfl

theorem bit_not (b : Bool) : bit (!b) = 1 - bit b := by
  cases b <;> rfl

/-- Settles O13: FILT_TOGGLE writes the negation of `FILT_EN`, and a double negation cancels. -/
theorem filterToggleFlipsTheEnable : Obligations.FilterToggleFlipsTheEnable := by
  refine ⟨fun s => ⟨_, rfl, rfl, bit_not s.filtEn⟩, fun s t u ht hu => ?_, decode_eq_instr_iff_eq rfl rfl,
    by decide +kernel⟩
  cases ht; cases hu
  exact congrArg s.setFiltEn (Bool.not_not s.filtEn)

end Sys2Proof.Machine
end

