-- ==== Sys2Proof/Proofs/SampleTick.lean ====
section
/-!
PROOF. The TICK of a block in operation: the words of the FIFO are applied, every sounding slot is evaluated and the
sum of the slots is clamped once to full scale (R181, R182, R185). The order of the slots does not matter (R183).
-/

namespace Sys2Proof.Machine

/-- The step of a TICK: the words of the FIFO applied, which empties it, and one sample produced (R181). -/
theorem step_of_tick {s : State} {rest : List PortOp} (hs : s.Ready) (hp : s.pending = .tick :: rest) :
    ∃ u, drainWords s.fifo (s.setPending rest) = .next u ∧ CommandFrame ((s.setPending rest).setFifo []) u ∧
      step s = .next (produceSample u) := by
  obtain ⟨u, hu, htick⟩ := tick_completes (s.setPending rest)
  exact ⟨u, hu, drainWords_frame _ _ _ rfl hu, (step_of_ready hs hp).trans htick⟩

/-- The step of a TICK that finds no word only produces its sample (R181). -/
theorem step_of_tick_empty {s : State} {rest : List PortOp} (hs : s.Ready) (hp : s.pending = .tick :: rest)
    (hf : s.fifo = []) : step s = .next (produceSample (s.setPending rest)) :=
  (step_of_ready hs hp).trans (tick_of_empty (s := s.setPending rest) hf)

/-! ### One slot -/

/-- What a sounding slot contributes: the oscillator's sample, through the filter when `FILT_EN = 1` (R126, R127). -/
theorem laneSample_of_sounding {v : Voice} (ha : v.active = true) (c : LaneInputs) :
    laneSample c v =
      if c.filtEn = true then (svf (osc v.p c.wave) v.l.toInt v.b.toInt c.coefs).y else osc v.p c.wave :=
  if_pos ha

/-- What a TICK writes to a sounding slot: its phase moves by its tuning word, modulo `2^32`, and its filter registers
take the filter's results when `FILT_EN = 1` (R111, R126, R127). -/
theorem laneVoice_of_sounding {v : Voice} (ha : v.active = true) (c : LaneInputs) :
    laneVoice c v = { v with
      p := BitVec.ofNat 32 (v.p.toNat + freqRom c.config.fs v.voct.toNat v.note.toNat)
      l := if c.filtEn = true then
          BitVec.ofInt 32 (svf (osc v.p c.wave) v.l.toInt v.b.toInt c.coefs).l else v.l
      b := if c.filtEn = true then
          BitVec.ofInt 32 (svf (osc v.p c.wave) v.l.toInt v.b.toInt c.coefs).b else v.b } := by
  have hphase : v.p + v.inc c.config =
      BitVec.ofNat 32 (v.p.toNat + freqRom c.config.fs v.voct.toNat v.note.toNat) := by
    rw [Voice.inc, BitVec.ofNat_add, BitVec.ofNat_toNat, BitVec.setWidth_eq]
  rw [← hphase]
  unfold laneVoice filteredVoice
  rw [if_pos ha]
  split <;> rfl

/-- A contribution fits 32 signed bits: the filter saturates, the oscillator stays within full scale and an Idle slot
contributes 0 (R109, R120, R184). -/
theorem laneSample_range (c : LaneInputs) (v : Voice) : -(2 ^ 31) ≤ laneSample c v ∧ laneSample c v ≤ 2 ^ 31 - 1 := by
  cases ha : v.active with
  | false => rw [laneSample_of_idle ha]; decide
  | true =>
    rw [laneSample_of_sounding ha]
    split
    · rw [svf_y]
      exact sat32_bounds _
    · obtain ⟨hlo, hhi⟩ := osc_range v.p c.wave
      exact ⟨le_trans (by decide) hlo, le_trans hhi (by decide)⟩

/-! ### The mix -/

/-- Each slot adds at most `2^31` in magnitude to the sum (R184). -/
theorem abs_mixSum_le (c : LaneInputs) : ∀ vs : List Voice, |mixSum c vs| ≤ vs.length * 2 ^ 31
  | [] => le_rfl
  | v :: vs => by
    have hsum := abs_mixSum_le c vs
    obtain ⟨hlo, hhi⟩ := laneSample_range c v
    rw [abs_le] at hsum ⊢
    rw [mixSum_cons, List.length_cons]
    omega

/-- The mix clamps a sum, so the order of the slots does not matter (R182, R183). -/
theorem mixSample_of_perm (c : LaneInputs) {vs us : List Voice} (h : vs.Perm us) : mixSample c vs = mixSample c us :=
  congrArg (clamp (-ONE) ONE) (h.map (laneSample c)).sum_eq

/-- The sample is within full scale (R182, R185). -/
theorem mixSample_range (c : LaneInputs) (vs : List Voice) :
    -16777216 ≤ mixSample c vs ∧ mixSample c vs ≤ 16777216 :=
  clamp_bounds (by decide) (mixSum c vs)

/-! ### The statements -/

/-- Settles O20: the step drains the FIFO and produces a sample; the sum, the slots and their coefficients are the
lanes', and the rule's run is computed. -/
theorem tickAppliesEvaluatesAndMixes : Obligations.TickAppliesEvaluatesAndMixes := by
  refine ⟨fun _ => rfl, fun w ws s u h => drainWords_cons h, fun s rest hs hp => ?_, by decide +kernel⟩
  obtain ⟨u, hu, frame, hstep⟩ := step_of_tick hs hp
  refine ⟨u, produceSample u, hu, hstep, rfl, frame.fifo, List.length_map .., ⟨_, rfl, ?_⟩, fun k v hv => ⟨fun ha => ?_,
    fun ha => ?_⟩⟩
  · rw [mixSample_toInt, mixSample, clamp_eq_max_min (by decide), mixSum_eq_sounding]
    rw [List.map_congr_left fun v hv => laneSample_of_sounding (List.mem_filter.1 hv).2 (laneInputs u)]
    rfl
  · rw [produceSample_getElem?, hv, Option.map_some, laneVoice_of_idle ha]
  · rw [produceSample_getElem?, hv, Option.map_some, laneVoice_of_sounding ha]
    rfl

/-- Settles O22: with no command to name a slot, both TICKs take the lanes of the same registers over the same slots
in another order. -/
theorem slotOrderDoesNotChangeTheSample : Obligations.SlotOrderDoesNotChangeTheSample := by
  intro s vs rest hs hp hf hperm
  have hs' : (s.setVoices vs).Ready := by
    obtain ⟨hdone, hconfig, octave, cutoff, slots, voices, fifo⟩ := hs
    exact ⟨hdone, hconfig, octave, cutoff, hperm.length_eq.symm.trans slots,
      fun v hv => voices v (hperm.mem_iff.2 hv), fifo⟩
  refine ⟨_, _, step_of_tick_empty hs hp hf, step_of_tick_empty hs' hp hf, ?_, hperm.map _⟩
  exact congrArg (fun x => PortOutput.sample (BitVec.ofInt 32 x)) (mixSample_of_perm _ hperm).symm

/-- Settles O23: the word a TICK returns is read back as the clamped sum. -/
theorem everySampleIsWithinFullScale : Obligations.EverySampleIsWithinFullScale := by
  intro s rest hs hp
  obtain ⟨u, -, -, hstep⟩ := step_of_tick hs hp
  refine ⟨_, _, hstep, rfl, ?_⟩
  rw [mixSample_toInt]
  exact mixSample_range _ _

/-- Settles O24: at most 16 slots are summed, each at most `2^31` in magnitude. -/
theorem mixAccumulatorNeverOverflows : Obligations.MixAccumulatorNeverOverflows := by
  rintro s ⟨-, ⟨-, -, hmax, -⟩, -, -, hlen, -⟩
  refine ⟨laneSample_range _, fun k => ?_⟩
  have hcount : (s.voices.take k).length ≤ 16 := by
    rw [List.length_take, hlen]
    exact le_trans (Nat.min_le_right ..) hmax
  have hsum : |mixSum (laneInputs s) (s.voices.take k)| ≤ 2 ^ 35 :=
    (abs_mixSum_le _ _).trans (by omega)
  obtain ⟨hlo, hhi⟩ := abs_le.1 hsum
  exact ⟨hsum, by omega, by omega⟩

end Sys2Proof.Machine
end

