-- ==== Sys2Proof/Proofs/Silence.lean ====
section
/-!
PROOF. Silence (R186): a TICK with no sounding voice returns 0, and the words of `ALL_OFF` (R81, R223) leave no voice
sounding and move no setting.
-/

namespace Sys2Proof.Machine

/-- The registers and the flag a command can write, as a tuple. -/
def State.settings (s : State) : BitVec 3 × Waveform × Bool × BitVec 16 × BitVec 4 × Bool :=
  (s.octave, s.wave, s.filtEn, s.cutoff, s.resIdx, s.ovf)

/-- The word of NOTE_OFF to slot `k`, as `ALL_OFF` writes it (R81). -/
def noteOffWord (k : Nat) : CmdWord := encode (.noteOff (BitVec.ofNat 4 k))

theorem decode_noteOffWord (k : Nat) : decode (noteOffWord k) = .instr (.noteOff (BitVec.ofNat 4 k)) :=
  decode_encode rfl

/-- NOTE_OFF moves no setting (R141). -/
theorem exec_noteOff_settings {slot : BitVec 4} {s t : State} (h : exec (.noteOff slot) s = .next t) :
    t.settings = s.settings := by
  cases h
  rw [onSlot_eq_setVoices]
  rfl

/-- A slot that sounds after a NOTE_OFF is another one and sounded before (R141). -/
theorem sounding_before_noteOff {slot : BitVec 4} {s t : State} {i : Nat} (h : exec (.noteOff slot) s = .next t)
    (hslot : slot.toNat < s.config.numVoices) (ht : t.Sounding i) : i ≠ slot.toNat ∧ s.Sounding i := by
  obtain ⟨v, hv, ha⟩ := ht
  have hne : i ≠ slot.toNat := by
    rintro rfl
    rw [(idle_of_exec_noteOff h hslot hv).1] at ha
    cases ha
  cases h
  rw [onSlot_getElem?_of_ne _ hne] at hv
  exact ⟨hne, v, hv, ha⟩

/-- A slot that sounds after NOTE_OFFs to the slots `ks` is none of them and sounded before. -/
theorem sounding_before_noteOffs : ∀ {ks : List Nat} {s t : State} {i : Nat},
    (∀ k ∈ ks, k < 16 ∧ k < s.config.numVoices) → drainWords (ks.map noteOffWord) s = .next t → t.Sounding i →
      i ∉ ks ∧ s.Sounding i
  | [], _, _, _, _, h, ht => by cases h; exact ⟨List.not_mem_nil, ht⟩
  | k :: ks, s, t, i, hks, h, ht => by
    obtain ⟨⟨hk, hpresent⟩, hks⟩ := List.forall_mem_cons.1 hks
    obtain ⟨u, hu⟩ := exec_completes (.noteOff (BitVec.ofNat 4 k)) (s.setFifo (ks.map noteOffWord))
    have hconfig : u.config = s.config := (exec_frame hu).config
    have hslot : (BitVec.ofNat 4 k).toNat = k := BitVec.toNat_ofNat .. ▸ Nat.mod_eq_of_lt hk
    rw [List.map_cons, drainWords_cons ((applyWord_of_instr (decode_noteOffWord k) _).trans hu)] at h
    obtain ⟨hrest, hui⟩ := sounding_before_noteOffs (hconfig ▸ hks) h ht
    obtain ⟨hne, hsi⟩ := sounding_before_noteOff hu (by rwa [hslot]) hui
    exact ⟨List.not_mem_cons_of_ne_of_not_mem (hslot ▸ hne) hrest, hsi⟩

/-- NOTE_OFFs move no setting. -/
theorem drainWords_noteOffs_settings {ks : List Nat} {s t : State}
    (h : drainWords (ks.map noteOffWord) s = .next t) : t.settings = s.settings := by
  by_contra hne
  obtain ⟨w, hmem, i, a, b, hd, hi, hab⟩ := drainWords_changes (f := State.settings) (fun _ _ => rfl) h hne
  obtain ⟨k, -, rfl⟩ := List.mem_map.1 hmem
  cases (decode_noteOffWord k).symm.trans hd
  exact hab (exec_noteOff_settings hi)

/-- The words of `ALL_OFF` are the NOTE_OFFs to all slots of the voice array (R81). -/
theorem eq_noteOffs_of_allOff {c : Config} {ws : List CmdWord}
    (h : ws.map PortOp.cmdWrite = AsmLine.allOff.expand c) : ws = (List.range c.numVoices).map noteOffWord := by
  have hinj : Function.Injective PortOp.cmdWrite := fun _ _ => PortOp.cmdWrite.inj
  apply hinj.list_map
  rw [h, List.map_map]
  rfl

/-- The words of `ALL_OFF` leave no voice of a block in operation sounding (R81). -/
theorem silent_of_allOff {s u : State} (hs : s.Ready)
    (hu : drainWords ((List.range s.config.numVoices).map noteOffWord) s = .next u) : u.Silent := by
  obtain ⟨-, ⟨-, -, hmax, -⟩, -, -, hlen, -⟩ := hs
  intro v hv
  obtain ⟨i, hi⟩ := List.mem_iff_getElem?.1 hv
  refine Bool.eq_false_iff.2 fun ha => ?_
  obtain ⟨hout, w, hw, -⟩ := sounding_before_noteOffs
    (fun k hk => ⟨(List.mem_range.1 hk).trans_le hmax, List.mem_range.1 hk⟩) hu ⟨v, hi, ha⟩
  exact hout (List.mem_range.2 (hlen ▸ (List.getElem?_eq_some_iff.1 hw).1))

/-- The step of a TICK whose words leave no voice sounding returns 0 and changes nothing more (R186). -/
theorem step_of_tick_silent {s u : State} {rest : List PortOp} (hs : s.Ready) (hp : s.pending = .tick :: rest)
    (hu : drainWords s.fifo (s.setPending rest) = .next u) (hsilent : u.Silent) :
    step s = .next (u.setOutput (.sample 0)) := by
  rw [step_of_ready hs hp, ← produceSample_of_silent hsilent]
  exact tick_of_drain (s := s.setPending rest) hu

/-- Settles O25: a silent array mixes to 0 and is not written; `ALL_OFF` names every slot and no register. -/
theorem silenceIsExactlyZero : Obligations.SilenceIsExactlyZero := by
  refine ⟨fun s rest hs hp hall => ?_, fun s rest hs hp hoff => ?_⟩
  · obtain ⟨u, hu⟩ := drainWords_completes s.fifo (s.setPending rest)
    exact ⟨_, step_of_tick_silent hs hp hu (hall u hu), rfl, hall u hu⟩
  · obtain ⟨u, hu⟩ := drainWords_completes s.fifo (s.setPending rest)
    have hwords := eq_noteOffs_of_allOff hoff
    have hsilent : u.Silent := silent_of_allOff (s := s.setPending rest) hs (hwords ▸ hu)
    have hsettings : u.settings = s.settings := drainWords_noteOffs_settings (s := s.setPending rest) (hwords ▸ hu)
    simp only [State.settings, Prod.mk.injEq] at hsettings
    obtain ⟨octave, wave, filtEn, cutoff, resIdx, ovf⟩ := hsettings
    exact ⟨_, step_of_tick_silent hs hp hu hsilent, rfl, hsilent, octave, wave, filtEn, cutoff, resIdx, ovf⟩

end Sys2Proof.Machine
end

