-- ==== Sys2Proof/Proofs/HostPorts.lean ====
section
/-!
PROOF. The two ports of the host that see the FIFO: CMD_WRITE (R180) and STATUS_READ (R190) with the layout of
`STATUS` (R35).
-/

namespace Sys2Proof.Machine

/-- Settles O40: the FIFO has room or is full, and CMD_WRITE pushes or drops; the rule's run is computed. -/
theorem commandWritePushesOrDrops : Obligations.CommandWritePushesOrDrops := by
  refine ⟨fun s w rest hs hp => ⟨cmdWrite w (s.setPending rest), step_of_ready hs hp, ?_⟩, by decide +kernel⟩
  rcases Nat.lt_or_ge s.fifoCount s.config.cmdFifoDepth with hroom | hfull
  · rw [cmdWrite_of_room (s := s.setPending rest) hroom]
    exact ⟨rfl, fun _ => ⟨rfl, rfl⟩, fun hfull => absurd hfull hroom.ne⟩
  · rw [cmdWrite_of_full (s := s.setPending rest) hfull]
    exact ⟨rfl, fun hroom => absurd hroom hfull.not_gt, fun _ => ⟨rfl, rfl⟩⟩

/-- A block in operation holds at most 31 words, so five bits show their number (R5, R35). -/
theorem fifo_length_lt_of_ready {s : State} (hs : s.Ready) : s.fifo.length < 32 := by
  obtain ⟨-, ⟨-, -, -, -, hdepth⟩, -, -, -, -, hcount⟩ := hs
  exact Nat.lt_succ_of_le (hcount.trans hdepth)

theorem bit_le_one (b : Bool) : bit b ≤ 1 := by cases b <;> decide

/-- A word with `n < 32` and a bit of weight 256 shows `n` in bits 4:0 and the bit in bit 8, and 0 elsewhere (R35). -/
theorem status_fields {x : Word32} {n k : Nat} (hn : n < 32) (hk : k ≤ 1) (hx : x.toNat = n + 256 * k) :
    field x 4 0 = n ∧ field x 7 5 = 0 ∧ field x 8 8 = k ∧ field x 31 9 = 0 := by
  simp only [field, hx]
  omega

/-- The number `STATUS` stands for (R35). -/
theorem statusWord_toNat {s : State} (hs : s.Ready) : (statusWord s).toNat = s.fifo.length + 256 * bit s.ovf := by
  have hcount := fifo_length_lt_of_ready hs
  have hbit := bit_le_one s.ovf
  rw [statusWord, BitVec.toNat_ofNat, State.fifoCount]
  exact Nat.mod_eq_of_lt (by omega)

/-- The step of a STATUS_READ writes the request list and the port only (R55, R190). -/
theorem step_of_statusRead {s : State} {rest : List PortOp} (hs : s.Ready) (hp : s.pending = .statusRead :: rest) :
    step s = .next { s with pending := rest, output := .status (statusWord s) } :=
  step_of_ready hs hp

/-- Settles O41: the word is `STATUS` of the state read; a TICK has emptied the FIFO; the rule's runs are computed. -/
theorem statusReadShowsCountAndOverflow : Obligations.StatusReadShowsCountAndOverflow := by
  refine ⟨fun s rest hs hp => ?_, fun s rest hs hp => ?_, by decide +kernel, by decide +kernel⟩
  · exact ⟨statusWord s, step_of_statusRead hs hp, statusWord_toNat hs,
      status_fields (fifo_length_lt_of_ready hs) (bit_le_one s.ovf) (statusWord_toNat hs)⟩
  · obtain ⟨u, -, frame, hstep⟩ := step_of_tick hs hp
    have hready : (produceSample u).Ready := step_keeps_ready hs hstep
    have hpending : (produceSample u).pending = .statusRead :: rest := frame.pending
    have hcount : (produceSample u).fifo.length = 0 := congrArg List.length frame.fifo
    obtain ⟨hfield, -⟩ := status_fields (fifo_length_lt_of_ready hready) (bit_le_one _) (statusWord_toNat hready)
    exact ⟨_, _, (run_succ hstep 1).trans (run_one (step_of_statusRead hready hpending)), rfl, hfield.trans hcount⟩

end Sys2Proof.Machine
end

