-- ==== Sys2Proof/Proofs/Exceptions.lean ====
section
/-!
PROOF. The steps the block does not take: none is defined from an unreachable state (R214), and without a request it
keeps all its state (R212).
-/

namespace Sys2Proof.Machine

/-- After a RESET, a state that breaks an invariant of R42 is refused whatever the request, RESET included
(R214, log 6). -/
theorem step_of_not_legal {s : State} {op : PortOp} {rest : List PortOp} (hd : s.resetDone = true)
    (hp : s.pending = op :: rest) (hs : ¬ s.Legal) : step s = .refused .unreachableState := by
  have hl : ¬ (s.setPending rest).Legal := hs
  simp only [step, takeStep, hp, perform, State.setPending_resetDone, hd, if_true, if_neg hl]

/-- Settles O44: each of the values breaks its own invariant of R42. -/
theorem unreachableStatesAreRefused : Obligations.UnreachableStatesAreRefused := by
  intro s op rest hd hp hvalue
  refine step_of_not_legal hd hp fun ⟨_, octave, cutoff, _, voices, fifo⟩ => ?_
  obtain hoctave | hcutoff | ⟨v, hv, hactive, hpitch⟩ | hfifo := hvalue
  · exact absurd (hoctave ▸ octave) (by decide)
  · exact hcutoff cutoff.eq_multiple
  · obtain ⟨hnote, hvoct⟩ := voices v hv hactive
    exact hpitch.elim hnote.not_gt hvoct.not_gt
  · exact fifo.not_gt hfifo

/-- Settles O54: by induction on the steps, each of which answers the state it found (R212). -/
theorem idleBlockKeepsItsState : Obligations.IdleBlockKeepsItsState := by
  intro s k hp
  induction k with
  | zero => rfl
  | succ k ih => exact (run_succ (step_of_idle hp) k).trans ih

end Sys2Proof.Machine
end

