-- ==== Sys2Proof/Proofs/Reset.lean ====
section
/-!
PROOF. RESET (R220): what it leaves, from a block in operation and from the unspecified power-on state, and the steps
the power-on state does not take (R221).
-/

namespace Sys2Proof.Machine

/-- Before the first RESET, with legal parameters, the step is the oldest request's meaning at power-on (R221). -/
theorem step_of_powerOn {s : State} {op : PortOp} {rest : List PortOp} (hd : s.resetDone = false)
    (hc : s.config.Legal) (hp : s.pending = op :: rest) : step s = performPowerOn op (s.setPending rest) := by
  have hlegal : (s.setPending rest).config.Legal := hc
  simp only [step, takeStep, hp, perform, State.setPending_resetDone, hd, Bool.false_eq_true, if_false, if_pos hlegal]

/-- RESET is taken from a block in operation and from the power-on state alike, and keeps only the parameters and the
requests behind it (R220, R221). -/
theorem step_of_reset {s : State} {rest : List PortOp} (hc : s.config.Legal) (hs : s.resetDone = true → s.Legal)
    (hp : s.pending = .reset :: rest) : step s = .next ((State.resetValues s.config).setPending rest) := by
  cases hd : s.resetDone with
  | true => exact step_of_ready ⟨hd, hs hd⟩ hp
  | false => exact step_of_powerOn hd hc hp

/-- Settles O42: the step ends in the reset values, which the rule lists; they are in operation and silent, so that
the TICK behind the RESET returns 0. -/
theorem resetRestoresTheStartupState : Obligations.ResetRestoresTheStartupState := by
  refine ⟨fun s rest hc hs hp => ?_, fun s rest hc hs hp => ?_⟩
  · exact ⟨_, step_of_reset hc hs hp, rfl, rfl, rfl, rfl, rfl, List.length_replicate,
      fun _ hv => List.eq_of_mem_replicate hv, rfl, rfl, rfl, rfl, rfl⟩
  · have hready : ((State.resetValues s.config).setPending (.tick :: rest)).Ready := resetValues_ready hc
    have htick := step_of_tick_silent hready rfl rfl (resetValues_silent s.config)
    exact ⟨_, (run_succ (step_of_reset hc hs hp) 1).trans (run_one htick), rfl⟩

/-- Settles O43: at power-on each request but RESET is refused, and RESET ends in the reset values, which are in
operation. -/
theorem powerOnIsRefusedUntilReset : Obligations.PowerOnIsRefusedUntilReset := by
  intro s rest hd hc
  exact ⟨fun _ => step_of_powerOn hd hc, step_of_powerOn hd hc, step_of_powerOn hd hc,
    fun hp => ⟨_, step_of_powerOn hd hc hp, resetValues_ready hc, rfl⟩⟩

end Sys2Proof.Machine
end
